-- ==== Sys2Proof/Word.lean ====
section
/-! DEFINITION. The word types of TM1637PE: a byte, an operation selector, a line level and a pin identifier (00_scope.md R8, R10). -/

namespace Sys2Proof

/-- R10: "A byte is an 8-bit unsigned value 0..255. Bit 0 is the least significant bit". -/
abbrev Byte := BitVec 8

/-- R60: the 8-bit operation selector of a host operation. -/
abbrev Opsel := BitVec 8

/-- R10: "a line level is `H` (high) or `L` (low)". -/
inductive Level
  | high
  | low
  deriving DecidableEq, Repr, Inhabited

/-- R8: the type of a pin identifier; "the only operation on it is equality" (D6).
DESIGN CHOICE (log 3): an identifier is a number in a wrapper, so that nothing can be computed with it. -/
structure PinId where
  id : Nat
  deriving DecidableEq, Repr

/-- R10: the value `true` of a bit is the level `H` (40_transport.md R88, "x == 1 ? H : L"). -/
def Level.ofBit (x : Bool) : Level := if x then .high else .low

end Sys2Proof
end

