-- ==== Sys2Proof/Syntax.lean ====
section
/-! DEFINITION. The two levels of 30_encoding.md as syntax: the operations the host issues (R60, R61) and the bytes the
engine sends on the wire (R66 to R68, R70). `Instr` has one constructor per row of spec/opcode_table.json. -/

namespace Sys2Proof

/-- One constructor per row of the opcode table. An integer operand is a mathematical integer (R62): a value outside
the domain an operation admits is a well-typed operand, which the engine refuses when it runs the operation. -/
inductive Instr
  /-- 0x00 CONSTRUCT (R180). -/
  | construct (clk dio : PinId)
  /-- 0x01 BIT_DELAY (R81). -/
  | bitDelay
  /-- 0x02 START (R84). -/
  | start
  /-- 0x03 STOP (R86). -/
  | stop
  /-- 0x04 WRITE_BYTE (R87). -/
  | writeByte (b : Int)
  /-- 0x10 ENCODE_DIGIT (R110). -/
  | encodeDigit (digit : Int)
  /-- 0x20 SET_BRIGHTNESS (R131). -/
  | setBrightness (level : Int) (on : Bool)
  /-- 0x21 SET_COLON (R133). -/
  | setColon (on : Bool)
  /-- 0x22 SET_SEGMENTS (R134). -/
  | setSegments (segments : List Int) (length pos : Int)
  /-- 0x23 SHOW_NUMBER_DEC (R140). -/
  | showNumberDec (num : Int) (leadingZero : Bool) (length pos : Int)
  /-- 0x24 CLEAR (R145). -/
  | clear
  /-- The wire byte 0x40 (R66). -/
  | cmdData
  /-- The wire byte 1000oLLL (R67). -/
  | cmdDispCtrl (on : Bool) (level : BitVec 3)
  /-- The wire byte 110000pp (R68). -/
  | cmdAddr (pos : BitVec 2)
  /-- A segment byte cGFEDCBA (R70). -/
  | segData (b : Byte)
  deriving DecidableEq, Repr

/-- The eleven host operations by name (R12, R61). -/
inductive HostOpcode
  | construct | bitDelay | start | stop | writeByte | encodeDigit
  | setBrightness | setColon | setSegments | showNumberDec | clear
  deriving DecidableEq, Repr

/-- R60: "Operands are not packed into bits: each is a value of the type given in rule R61". -/
inductive Operand
  | pin (p : PinId)
  | int (n : Int)
  | bool (x : Bool)
  | ints (ns : List Int)
  deriving DecidableEq, Repr

/-- R60: "A host operation is a record `(opsel, operands)`". -/
structure HostOp where
  opsel    : Opsel
  operands : List Operand
  deriving DecidableEq, Repr

/-- R69: "A byte's role on the wire is decided by its place in the frame: the first byte of a frame is a command;
every later byte of an address frame is a segment byte of any value". -/
inductive WireRole
  | command
  | segment
  deriving DecidableEq, Repr

/-- What the host's program holds: an operation record, or a wire byte with its role (log 4). -/
inductive Slot
  | op (o : HostOp)
  | wire (role : WireRole) (b : Byte)
  deriving DecidableEq, Repr

/-- Why a slot spells no instruction. -/
inductive DecodeError
  /-- R63: a reserved operation selector; the engine refuses it with REFUSE_OPSEL. -/
  | reservedSelector (opsel : Opsel)
  /-- The operands are not of the number and types R61 gives the selector. -/
  | illTypedOperands (opsel : Opsel)
  /-- R69: the first byte of a frame that is none of the three command patterns. -/
  | notACommand (b : Byte)
  deriving DecidableEq, Repr

end Sys2Proof
end

