-- ==== Sys2Proof/WellFormed.lean ====
section
/-! DEFINITION. The operand domain each operation's rule admits (30_encoding.md R62, 60_exceptions.md R164), as a check on
the syntax. An ill-formed instruction still has a meaning: the engine refuses it with the kind R164 names. -/

namespace Sys2Proof

/-- R62: a segment element is "0..255 (a \"byte\")"; so is the operand of WRITE_BYTE (R87). -/
def isByteValue (n : Int) : Bool := decide (0 ≤ n) && decide (n < 256)

/-- R134, R140: the position lies on the display and the run of `length` positions from it does too. -/
def Instr.placeOk (length pos : Int) : Bool :=
  decide (0 ≤ pos) && decide (pos < 4) && decide (pos + length ≤ 4)

/-- The operands lie in the domain of the operation's rule. -/
def Instr.wellFormed : Instr → Bool
  | .construct clk dio => clk != dio
  | .bitDelay => true
  | .start => true
  | .stop => true
  | .writeByte b => isByteValue b
  | .encodeDigit digit => decide (0 ≤ digit) && decide (digit < 16)
  | .setBrightness level _ => decide (0 ≤ level)
  | .setColon _ => true
  | .setSegments segments length pos =>
      decide (0 ≤ length) && decide (length ≤ 4) && Instr.placeOk length pos
        && decide (length ≤ (segments.length : Int)) && (segments.take length.toNat).all isByteValue
  | .showNumberDec num _ length pos =>
      decide (1 ≤ length) && decide (length ≤ 4) && Instr.placeOk length pos
        && decide (0 ≤ num) && decide (num < 10 ^ length.toNat)
  | .clear => true
  | .cmdData => true
  | .cmdDispCtrl _ _ => true
  | .cmdAddr _ => true
  | .segData _ => true

end Sys2Proof
end

