-- ==== Sys2Proof/Decode.lean ====
section
/-! DEFINITION. Decoding and encoding at both levels of 30_encoding.md: the selector table of R61 with its typed operands,
and the wire byte patterns of R66 to R68 and R70. Total, rejecting by name. -/

namespace Sys2Proof

/-! ## Host operations -/

/-- R61's table of selectors. -/
def selectorTable : List (Opsel × HostOpcode) :=
  [(0x00, .construct), (0x01, .bitDelay), (0x02, .start), (0x03, .stop), (0x04, .writeByte), (0x10, .encodeDigit),
   (0x20, .setBrightness), (0x21, .setColon), (0x22, .setSegments), (0x23, .showNumberDec), (0x24, .clear)]

/-- The operation a selector spells; R63: a value not in the table spells none. -/
def opcodeOf? (sel : Opsel) : Option HostOpcode :=
  (selectorTable.find? (fun row => row.1 == sel)).map Prod.snd

/-- The selector of each operation (R61). -/
def HostOpcode.opsel : HostOpcode → Opsel
  | .construct => 0x00
  | .bitDelay => 0x01
  | .start => 0x02
  | .stop => 0x03
  | .writeByte => 0x04
  | .encodeDigit => 0x10
  | .setBrightness => 0x20
  | .setColon => 0x21
  | .setSegments => 0x22
  | .showNumberDec => 0x23
  | .clear => 0x24

/-- R61's operand column: the instruction an operation and its typed operands make. An omitted `on` operand of
SET_BRIGHTNESS means `true` (R64, R131). -/
def assemble : HostOpcode → List Operand → Option Instr
  | .construct, [.pin clk, .pin dio] => some (.construct clk dio)
  | .bitDelay, [] => some .bitDelay
  | .start, [] => some .start
  | .stop, [] => some .stop
  | .writeByte, [.int b] => some (.writeByte b)
  | .encodeDigit, [.int digit] => some (.encodeDigit digit)
  | .setBrightness, [.int level] => some (.setBrightness level true)
  | .setBrightness, [.int level, .bool on] => some (.setBrightness level on)
  | .setColon, [.bool on] => some (.setColon on)
  | .setSegments, [.ints segments, .int length, .int pos] => some (.setSegments segments length pos)
  | .showNumberDec, [.int num, .bool lz, .int length, .int pos] => some (.showNumberDec num lz length pos)
  | .clear, [] => some .clear
  | _, _ => none

/-- R165 (2): the selector is looked at first; a reserved one is refused whatever the operands are. -/
def decodeHostOp (o : HostOp) : Except DecodeError Instr :=
  match opcodeOf? o.opsel with
  | none => .error (.reservedSelector o.opsel)
  | some c =>
    match assemble c o.operands with
    | some i => .ok i
    | none => .error (.illTypedOperands o.opsel)

/-! ## Wire bytes -/

/-- The command a first byte of a frame spells: `01000000`, `1000oLLL` or `110000pp` (R66, R67, R68). A byte 0x90..0xBF or
0xC4..0xFF spells none, also under BRIGHT_RESET = Draw (DESIGN CHOICE, log 22). -/
def decodeCommand (b : Byte) : Option Instr :=
  if b &&& 0xFF = 0x40 then some .cmdData
  else if b &&& 0xF0 = 0x80 then some (.cmdDispCtrl (b.getLsbD 3) (b.extractLsb' 0 3))
  else if b &&& 0xFC = 0xC0 then some (.cmdAddr (b.extractLsb' 0 2))
  else none

/-- R69: a command is told by its value, by the three patterns alone (log 22); a later byte of an address frame is a segment byte of any value. -/
def decodeWire (role : WireRole) (b : Byte) : Except DecodeError Instr :=
  match role with
  | .segment => .ok (.segData b)
  | .command =>
    match decodeCommand b with
    | some i => .ok i
    | none => .error (.notACommand b)

/-- The decoder. -/
def decode : Slot → Except DecodeError Instr
  | .op o => decodeHostOp o
  | .wire role b => decodeWire role b

/-! ## The encoder -/

/-- `0x40` (R66). -/
def dataCommand : Byte := 0x40

/-- `0x80 | (level & 0x07) | (0x08 if display-on else 0)` (R67). -/
def dispCtrlCommand (on : Bool) (level : BitVec 3) : Byte :=
  0x80 ||| level.setWidth 8 ||| (if on then 0x08 else 0x00)

/-- `0xC0 | pos` (R68). -/
def addrCommand (pos : BitVec 2) : Byte := 0xC0 ||| pos.setWidth 8

/-- The words of an instruction: its selector and operands in R61's order, or its wire byte with its role. -/
def encode : Instr → Slot
  | .construct clk dio => .op ⟨0x00, [.pin clk, .pin dio]⟩
  | .bitDelay => .op ⟨0x01, []⟩
  | .start => .op ⟨0x02, []⟩
  | .stop => .op ⟨0x03, []⟩
  | .writeByte b => .op ⟨0x04, [.int b]⟩
  | .encodeDigit digit => .op ⟨0x10, [.int digit]⟩
  | .setBrightness level on => .op ⟨0x20, [.int level, .bool on]⟩
  | .setColon on => .op ⟨0x21, [.bool on]⟩
  | .setSegments segments length pos => .op ⟨0x22, [.ints segments, .int length, .int pos]⟩
  | .showNumberDec num lz length pos => .op ⟨0x23, [.int num, .bool lz, .int length, .int pos]⟩
  | .clear => .op ⟨0x24, []⟩
  | .cmdData => .wire .command dataCommand
  | .cmdDispCtrl on level => .wire .command (dispCtrlCommand on level)
  | .cmdAddr pos => .wire .command (addrCommand pos)
  | .segData b => .wire .segment b

/-- The selector under which an instruction reports a fault or a refusal (R160, R164). A wire byte is sent by
WRITE_BYTE (R73), so it reports under WRITE_BYTE's selector. -/
def Instr.opsel : Instr → Opsel
  | .construct _ _ => 0x00
  | .bitDelay => 0x01
  | .start => 0x02
  | .stop => 0x03
  | .writeByte _ => 0x04
  | .encodeDigit _ => 0x10
  | .setBrightness _ _ => 0x20
  | .setColon _ => 0x21
  | .setSegments _ _ _ => 0x22
  | .showNumberDec _ _ _ _ => 0x23
  | .clear => 0x24
  | .cmdData => 0x04
  | .cmdDispCtrl _ _ => 0x04
  | .cmdAddr _ => 0x04
  | .segData _ => 0x04

/-! ## Words numbered as the opcode table numbers them -/

/-- The operands a table word leaves out, all zero: the table gives operands no bits (R60). -/
def zeroOperands : HostOpcode → List Operand
  | .construct => [.pin ⟨0⟩, .pin ⟨0⟩]
  | .bitDelay => []
  | .start => []
  | .stop => []
  | .writeByte => [.int 0]
  | .encodeDigit => [.int 0]
  | .setBrightness => [.int 0, .bool false]
  | .setColon => [.bool false]
  | .setSegments => [.ints [], .int 0, .int 0]
  | .showNumberDec => [.int 0, .bool false, .int 0, .int 0]
  | .clear => []

/-- The slot a word of the opcode table lays out. The table holds both encoding levels in one list: a row that fixes
all or the high bits of its byte is told by its value, a selector before a command (no value is both), and every other
byte matches the row SEG_DATA only, which fixes no bit (log 5). -/
def slotOfTableByte (b : Byte) : Slot :=
  match opcodeOf? b with
  | some c => .op ⟨b, zeroOperands c⟩
  | none =>
    match decodeCommand b with
    | some _ => .wire .command b
    | none => .wire .segment b

/-- The instruction the decoder reads from an opcode-table word. Every row of the table is one byte. -/
def decodeTableWord (nbits w : Nat) : Option Instr :=
  if nbits ≤ 8 ∧ w < 256 then
    match decode (slotOfTableByte (BitVec.ofNat 8 w)) with
    | .ok i => some i
    | .error _ => none
  else none

end Sys2Proof
end

