-- ==== Sys2Proof/Config.lean ====
section
/-! DEFINITION. What is fixed for one model instance (10_state.md R35) and the values the spec leaves free: the
parameters SEG_TABLE, BRIGHT_RESET, COLON_RESET and T_BIT of 00_scope.md R8, and the environment draws. -/

namespace Sys2Proof

/-- 41_encoder.md R112: what every admitted SEG_TABLE satisfies: (a) exactly 16 entries, (b) every entry has
bit 7 = 0, (c) the entries are pairwise distinct. (d), "the table never changes", is a property of the machine. -/
def SegTable.admitted (entries : List Byte) : Bool :=
  entries.length == 16 && entries.all (fun b => !b.getLsbD 7) && decide entries.Nodup

/-- SEG_TABLE (R31, R111, R112), the contents of SEG_ROM. It carries the proof that it is admitted, so a table that
breaks a constraint cannot be configured at all ("A model should reject a configured table that breaks any of them"). -/
structure SegTable where
  entries : List Byte
  ok : SegTable.admitted entries = true
  deriving DecidableEq, Repr

/-- R112: a table given as plain bytes is taken if it is admitted and rejected otherwise. -/
def SegTable.ofList? (entries : List Byte) : Option SegTable :=
  if h : SegTable.admitted entries = true then some ⟨entries, h⟩ else none

/-- The default table of R111. PRESUMED (log 1): the spec gives it "from general knowledge, not in source" (K1); no
statement about all states rests on it. -/
def SegTable.conventional : SegTable :=
  ⟨[0x3F, 0x06, 0x5B, 0x4F, 0x66, 0x6D, 0x7D, 0x07, 0x7F, 0x6F, 0x77, 0x7C, 0x39, 0x5E, 0x79, 0x71], by decide⟩

/-- The parameters BRIGHT_RESET and COLON_RESET (R8, R33, D12, D13): what a configuration register holds before the
first operation that writes it. -/
inductive ResetMode (α : Type)
  /-- It holds no value, and a read raises the fault R160 names (the default). -/
  | fault
  /-- Every read returns an arbitrary value drawn afresh. -/
  | draw
  /-- It holds this value. -/
  | value (v : α)
  deriving DecidableEq, Repr

/-- The configuration of one instance. No operation changes it (R35). BRIGHT_RESET = Value(v) admits every byte v, also
one above 0x0F (DESIGN CHOICE, log 21). -/
structure Config where
  segTable    : SegTable
  brightReset : ResetMode Byte
  colonReset  : ResetMode Bool
  deriving DecidableEq, Repr

/-- The default parameters of R8. -/
def Config.default : Config where
  segTable := SegTable.conventional
  brightReset := .fault
  colonReset := .fault

/-- T_BIT (R8, R81, D5): "tunable constant, not a contract". An open parameter with no value; no rule depends on it,
and only the informative minimum duration of R190 mentions it. -/
opaque Config.tBit : Nat

/-- ACK_ORACLE (R8, R82, D9): the level the receiver leaves on DIO at the n-th sample. A free value (log 6). -/
opaque Config.ackOracle : Nat → Level

/-- The byte a read of BRIGHT returns under BRIGHT_RESET = Draw (R33). A free value (log 7). -/
opaque Config.brightOracle : Nat → Byte

/-- The Boolean a read of COLON returns under COLON_RESET = Draw (R33). A free value (log 7). -/
opaque Config.colonOracle : Nat → Bool

end Sys2Proof
end

