-- ==== Sys2Proof/Machine/State.lean ====
section
/-! DEFINITION. The state of one TM1637PE instance (10_state.md), its value after reset (R33, R180), and the reasons a step
can stop. Plain data. -/

namespace Sys2Proof.Machine

/-- The two lines the engine drives (R14). -/
inductive Line
  | clk
  | dio
  deriving DecidableEq, Repr

/-- R26: a pin's direction as the engine last set it. -/
inductive PinDir
  | out
  | inPullup
  | unknown
  deriving DecidableEq, Repr

/-- R26: the level the engine last drove on a pin, or UNKNOWN. -/
inductive LineLevel
  | driven (v : Level)
  | unknown
  deriving DecidableEq, Repr

/-- R25: the Transport's per-transaction state. -/
inductive Phase
  | idle
  | framed
  deriving DecidableEq, Repr

/-- R11, R80: the pin events. -/
inductive PinEvent
  | cfgOut (p : PinId)
  | cfgInPullup (p : PinId)
  | setHigh (p : PinId)
  | setLow (p : PinId)
  | read (p : PinId) (v : Level)
  | delay
  deriving DecidableEq, Repr

/-- R160: "the closed list of faults the model raises". -/
inductive FaultKind
  | framingStart
  | framingIdle
  | uninitBright
  | uninitColon
  deriving DecidableEq, Repr

/-- R164: the closed list of refusal kinds. -/
inductive RefusalKind
  | opsel
  | samePin
  | reconstruct
  | notConstructed
  | byte
  | digit
  | level
  | length
  | pos
  | range
  | segments
  | num
  deriving DecidableEq, Repr

/-- R28: a fault is recorded with the selector of the operation that raised it. -/
structure FaultRecord where
  kind  : FaultKind
  opsel : Opsel
  deriving DecidableEq, Repr

/-- R29: a refusal is recorded with the selector of the refused operation. -/
structure RefusalRecord where
  kind  : RefusalKind
  opsel : Opsel
  deriving DecidableEq, Repr

/-- R33: what BRIGHT and COLON hold: a value, or before the first write and by the parameters BRIGHT_RESET and
COLON_RESET no value, or a value drawn at each read. -/
inductive Register (α : Type)
  | noValue
  | drawn
  | held (v : α)
  deriving DecidableEq, Repr

/-- R30, R61: what an operation returns to the host. -/
inductive HostResult
  | ack (acknowledged : Bool)
  | seg (b : Byte)
  deriving DecidableEq, Repr

/-- The environment (R15) as the engine meets it: the levels and values it will answer next, as far as they are given,
and how many draws were made from the free values of Config once they have run out (logs 6, 7). -/
structure Env where
  acks    : List Level
  brights : List Byte
  colons  : List Bool
  draws   : Nat
  deriving DecidableEq, Repr

/-- R20: the state of one instance, with the configuration it was made with (R35, which no operation changes) and, as
the model's own fields, what the two other agents of R15 hold: the host's remaining operations and the results it has
received, and the environment's draws. -/
structure State where
  /-- R182: whether CONSTRUCT has made the instance. -/
  constructed : Bool
  /-- R22. -/
  clkPin  : PinId
  /-- R22. -/
  dioPin  : PinId
  /-- R23. -/
  bright  : Register Byte
  /-- R24. -/
  colon   : Register Bool
  /-- R25. -/
  phase   : Phase
  /-- R26. -/
  clkDir  : PinDir
  /-- R26. -/
  dioDir  : PinDir
  /-- R26. -/
  clkLvl  : LineLevel
  /-- R26. -/
  dioLvl  : LineLevel
  /-- R27, oldest event first. -/
  trace   : List PinEvent
  /-- R28. -/
  fault   : Option FaultRecord
  /-- R29. -/
  refused : Option RefusalRecord
  /-- R35: SEG_TABLE, BRIGHT_RESET and COLON_RESET. -/
  cfg     : Config
  /-- R15: the environment's answers. -/
  env     : Env
  /-- R21: the operations the host has still to issue, the next one first. -/
  prog    : List Slot
  /-- R191: the results the host has received, oldest first. -/
  results : List HostResult
  deriving DecidableEq, Repr

/-- The environment with nothing given: every draw is a free value. -/
def Env.free : Env := ⟨[], [], [], 0⟩

/-- R182: before CONSTRUCT the instance does not exist. What its registers hold then is never read (log 8). -/
def State.unconstructed (cfg : Config) : State where
  constructed := false
  clkPin := ⟨0⟩
  dioPin := ⟨0⟩
  bright := .noValue
  colon := .noValue
  phase := .idle
  clkDir := .unknown
  dioDir := .unknown
  clkLvl := .unknown
  dioLvl := .unknown
  trace := []
  fault := none
  refused := none
  cfg := cfg
  env := Env.free
  prog := []
  results := []

/-- R33, R180: the machine as CONSTRUCT, "the block's reset", leaves it under the default parameters. The pins are
those of the spec's example `CONSTRUCT 2, 3` (DESIGN CHOICE, log 2): the construction operands are the host's. -/
def State.reset : State where
  constructed := true
  clkPin := ⟨2⟩
  dioPin := ⟨3⟩
  bright := .noValue
  colon := .noValue
  phase := .idle
  clkDir := .out
  dioDir := .out
  clkLvl := .unknown
  dioLvl := .unknown
  trace := [.cfgOut ⟨2⟩, .cfgOut ⟨3⟩]
  fault := none
  refused := none
  cfg := Config.default
  env := Env.free
  prog := []
  results := []

/-- Why the machine stops with a fault. -/
inductive Fault
  /-- Raised by every operation and every step of a state whose FAULT is set (R161, R165 (1): "a state already faulted
  or refused takes no step at all"). Safe: the model stops where the spec says there is no step. -/
  | engineFaulted (r : FaultRecord)
  deriving DecidableEq, Repr

/-- Why the machine has no next state. -/
inductive Refusal
  /-- An instruction with no meaning yet. Safe. Raised by no arm. -/
  | notModelled (mnemonic : String)
  /-- Raised by every operation and every step of a state whose REFUSED is set (R163, R165 (1)). Safe. -/
  | engineRefused (r : RefusalRecord)
  /-- Raised by a step when the host has issued its last operation (R191: the run is over). Safe. -/
  | programEnded
  /-- Raised by a step for an operation record whose operands are not those R61 gives its selector: no host operation
  at all (R60). Safe. -/
  | illTypedOperands (opsel : Opsel)
  /-- Raised by a step for a wire byte offered as a command that is none (R69: "What the receiver does with first bytes
  other than these patterns is not in the source"), also under BRIGHT_RESET = Draw (log 22). WRITE_BYTE sends such a byte.
  Safe. -/
  | notACommand (b : Byte)
  deriving DecidableEq, Repr

end Sys2Proof.Machine
end

