-- ==== Sys2Proof/Machine/Ops.lean ====
section
/-! DEFINITION. The shared operations: pin events and the drive, release, delay and sample steps of 40_transport.md, the
reads of BRIGHT and COLON, the read of SEG_ROM, raising a fault and refusing (60_exceptions.md), and the entry checks
every operation performs in the order of R165. -/

namespace Sys2Proof.Machine

abbrev Result := Host.Outcome State Fault Refusal

/-! ## Faults and refusals -/

/-- R161: `raise Fault(k)` "sets FAULT to k, with the operation's opsel" and changes nothing else. -/
def raiseFault (k : FaultKind) (op : Opsel) (s : State) : State := { s with fault := some ⟨k, op⟩ }

/-- R163: a refused operation "writes no register except `REFUSED <- (k, opsel)`". -/
def refuse (k : RefusalKind) (op : Opsel) (s : State) : State := { s with refused := some ⟨k, op⟩ }

/-- How an entry check ends an operation. -/
inductive Stop
  | refuse (k : RefusalKind)
  | raise (k : FaultKind)
  deriving DecidableEq, Repr

/-- The state in which a stopped operation leaves the engine. -/
def takeStop (k : Stop) (op : Opsel) (s : State) : State :=
  match k with
  | .refuse k => refuse k op s
  | .raise k => raiseFault k op s

/-- One operation's course: the check that stops it, or the state it leaves. -/
abbrev Course := Except Stop State

/-- An entry check: the operation goes on only if the condition holds. -/
def require (condition : Bool) (k : Stop) (rest : Course) : Course :=
  if condition then rest else .error k

/-- R165 (1): "a state already faulted or refused takes no step at all". -/
def unlessStopped (s : State) (r : Result) : Result :=
  match s.fault with
  | some f => .fault (.engineFaulted f)
  | none =>
    match s.refused with
    | some f => .refused (.engineRefused f)
    | none => r

/-- What a course makes of the state before it. Its stop is precise: nothing the operation did up to it is kept (R161,
R163). -/
def settle (op : Opsel) (s : State) (c : Course) : Result :=
  match c with
  | .ok s' => .next s'
  | .error k => .next (takeStop k op s)

/-- R165: the checks common to every operation but CONSTRUCT, (1) the sticky state and (3) REFUSE_NOT_CONSTRUCTED,
before the operation's own, which `course` makes in the order its pseudocode lists them. -/
def perform (op : Opsel) (s : State) (course : Course) : Result :=
  unlessStopped s
    (settle op s (require s.constructed (.refuse .notConstructed) course))

/-! ## Pin events -/

/-- R11, R27: `emit(e)` appends pin event e to TRACE. -/
def emit (e : PinEvent) (s : State) : State := { s with trace := s.trace ++ [e] }

/-- R80: the event that drives a pin to a level. -/
def driveEvent (p : PinId) : Level → PinEvent
  | .high => .setHigh p
  | .low => .setLow p

/-- R81: `delay()` emits DELAY; the wait of T_BIT has no other effect. -/
def delay (s : State) : State := emit .delay s

/-- R83: the first DIO drive after a release reconfigures DIO as an output. -/
def ensureDioOut (s : State) : State :=
  if s.dioDir = .out then s else { emit (.cfgOut s.dioPin) s with dioDir := .out }

/-- R83: `drive(p, lvl)`. "A drive is emitted even when the line already has that level." -/
def drive (l : Line) (v : Level) (s : State) : State :=
  match l with
  | .clk => { emit (driveEvent s.clkPin v) s with clkLvl := .driven v }
  | .dio =>
    let s := ensureDioOut s
    { emit (driveEvent s.dioPin v) s with dioLvl := .driven v }

/-- R89: the release of the data line, `emit(CFG_IN_PU(DIO_PIN)); DIO_DIR <- IN_PU; DIO_LVL <- UNKNOWN`. -/
def releaseDio (s : State) : State :=
  { emit (.cfgInPullup s.dioPin) s with dioDir := .inPullup, dioLvl := .unknown }

/-! ## The environment's draws -/

/-- R82: the level of one ACK sample, "independently of every earlier sample and of what was sent". -/
def Env.drawAck (e : Env) : Level × Env :=
  match e.acks with
  | v :: rest => (v, { e with acks := rest })
  | [] => (Config.ackOracle e.draws, { e with draws := e.draws + 1 })

/-- R33: a byte "drawn afresh" for a read of BRIGHT. -/
def Env.drawBright (e : Env) : Byte × Env :=
  match e.brights with
  | v :: rest => (v, { e with brights := rest })
  | [] => (Config.brightOracle e.draws, { e with draws := e.draws + 1 })

/-- R33: a Boolean "drawn afresh" for a read of COLON. -/
def Env.drawColon (e : Env) : Bool × Env :=
  match e.colons with
  | v :: rest => (v, { e with colons := rest })
  | [] => (Config.colonOracle e.draws, { e with draws := e.draws + 1 })

/-- R82: `sample(DIO_PIN)` draws a level, emits READ and returns it. -/
def sampleDio (s : State) : Level × State :=
  (s.env.drawAck.1, emit (.read s.dioPin s.env.drawAck.1) { s with env := s.env.drawAck.2 })

/-! ## Registers and SEG_ROM -/

/-- R33: what BRIGHT or COLON holds after CONSTRUCT. -/
def resetRegister {α : Type} : ResetMode α → Register α
  | .fault => .noValue
  | .draw => .drawn
  | .value v => .held v

/-- R23, R33: a read of BRIGHT; Fault(UNINIT_BRIGHT) "if BRIGHT holds no value" (R134). -/
def readBright (s : State) : Except Stop (Byte × State) :=
  match s.bright with
  | .held v => .ok (v, s)
  | .drawn => .ok (s.env.drawBright.1, { s with env := s.env.drawBright.2 })
  | .noValue => .error (.raise .uninitBright)

/-- R24, R33: a read of COLON; Fault(UNINIT_COLON) "if COLON holds no value" (R140). -/
def readColon (s : State) : Except Stop (Bool × State) :=
  match s.colon with
  | .held v => .ok (v, s)
  | .drawn => .ok (s.env.drawColon.1, { s with env := s.env.drawColon.2 })
  | .noValue => .error (.raise .uninitColon)

/-- R41: `MemRead(SEG_ROM + d, 1)` with 0 <= d <= 15. "It has no side effect and returns the same byte on every read." -/
def readSegRom (t : SegTable) (d : Fin 16) : Byte :=
  t.entries.get (d.cast (by have h := t.ok; simp [SegTable.admitted] at h; exact h.1.1.symm))

/-- R61: the engine hands a result to the host. No register keeps it (R30). -/
def giveResult (r : HostResult) (s : State) : State := { s with results := s.results ++ [r] }

end Sys2Proof.Machine
end

