-- ==== Sys2Proof/Machine/Construct.lean ====
section
/-! DEFINITION. CONSTRUCT (70_reset_and_hazards.md R180), the block's reset. -/

namespace Sys2Proof.Machine

/-- R180, after its checks. It drives no level, so the bus levels stay UNKNOWN until the first START (R184). -/
def constructBody (clk dio : PinId) (s : State) : State :=
  let s := { s with
    constructed := true
    clkPin := clk
    dioPin := dio
    bright := resetRegister s.cfg.brightReset
    colon := resetRegister s.cfg.colonReset
    phase := .idle }
  let s := { emit (.cfgOut clk) s with clkDir := .out }
  let s := { emit (.cfgOut dio) s with dioDir := .out }
  { s with clkLvl := .unknown, dioLvl := .unknown, fault := none, refused := none }

/-- CONSTRUCT (R180, R182): refused if the instance exists, and then if both pins are one (R166). -/
def execConstruct (clk dio : PinId) (s : State) : Result :=
  unlessStopped s <| settle 0x00 s <|
  require (!s.constructed) (.refuse .reconstruct) <|
  require (clk != dio) (.refuse .samePin) <|
  .ok (constructBody clk dio s)

end Sys2Proof.Machine
end

