-- ==== Sys2Proof/Machine/Operands.lean ====
section
/-! DEFINITION. Operand domains and the values operands stand for (30_encoding.md R62): an integer operand is taken whole
and refused outside the range its rule admits; only `level` is masked. -/

namespace Sys2Proof.Machine

/-- `0 <= n <= 255`: the domain of WRITE_BYTE's operand (R87) and of a segment element (R134). -/
def isByte (n : Int) : Bool := decide (0 ≤ n ∧ n ≤ 255)

/-- `0 <= digit <= 15` (R110). -/
def isDigit (n : Int) : Bool := decide (0 ≤ n ∧ n ≤ 15)

/-- `0 <= pos <= 3` (R134, R140). -/
def isPosition (n : Int) : Bool := decide (0 ≤ n ∧ n ≤ 3)

/-- `0 <= length <= 4` (R134). -/
def isSegmentsLength (n : Int) : Bool := decide (0 ≤ n ∧ n ≤ 4)

/-- `1 <= length <= 4` (R140). -/
def isDecimalLength (n : Int) : Bool := decide (1 ≤ n ∧ n ≤ 4)

/-- `pos + length <= 4` (R134, R140). -/
def fitsDisplay (length pos : Int) : Bool := decide (pos + length ≤ 4)

/-- R134: at least `length` elements, the first `length` of them bytes; later elements are ignored. -/
def segmentsOk (segments : List Int) (length : Int) : Bool :=
  decide (length ≤ (segments.length : Int)) && (segments.take length.toNat).all isByte

/-- `0 <= num < 10^length` (R140), for a length in its domain. -/
def numFits (num length : Int) : Bool := decide (0 ≤ num ∧ num < 10 ^ length.toNat)

/-- The byte an integer 0..255 stands for. -/
def toByte (n : Int) : Byte := BitVec.ofInt 8 n

/-- R134: the bytes sent for `length` elements of a segment list, in order, each verbatim (R137). -/
def segmentBytes (segments : List Int) (length : Int) : List Byte := (segments.take length.toNat).map toByte

/-- The bits of a byte in wire order, `b[0]` first (R42, R87). -/
def bitsLsbFirst (b : Byte) : List Bool :=
  [b.getLsbD 0, b.getLsbD 1, b.getLsbD 2, b.getLsbD 3, b.getLsbD 4, b.getLsbD 5, b.getLsbD 6, b.getLsbD 7]

end Sys2Proof.Machine
end

