-- ==== Sys2Proof/Machine/Flags.lean ====
section
/-! DEFINITION. R30: "the block has no flag or condition-code register". What stands here are the single bits the rules
compute: the acknowledgement, the display-on bit of BRIGHT and the colon bit of a segment byte. -/

namespace Sys2Proof.Machine

/-- R90: "the byte is acknowledged if and only if the sampled level is low". -/
def acknowledged (v : Level) : Bool := v == .low

/-- R131: `(level & 0x07) | (on ? 0x08 : 0x00)`, for a level not below 0. -/
def brightByte (level : Int) (on : Bool) : Byte :=
  (toByte level &&& 0x07) ||| (if on then 0x08 else 0x00)

/-- R67, R134: the display-control command `0x80 | BRIGHT`. Of a BRIGHT above 0x0F, which `Draw` gives and a `Value` may
(log 21), it may be one of 0x90..0xFF. -/
def controlByte (bright : Byte) : Byte := 0x80 ||| bright

/-- R68, R134: the address command `0xC0 | pos`. -/
def addressByte (pos : Nat) : Byte := 0xC0 ||| BitVec.ofNat 8 pos

/-- R71: the colon indicator is bit 7 of the segment byte at display position 1. -/
def colonBit : Byte := 0x80

/-- R140, R141: the colon bit is ORed into element `1 - pos`, if position 1 is written, and into no other. -/
def applyColon (colon : Bool) (pos : Nat) (seq : List Byte) : List Byte :=
  if colon = true ∧ pos ≤ 1 ∧ 1 < pos + seq.length then seq.modify (1 - pos) (· ||| colonBit) else seq

end Sys2Proof.Machine
end

