-- ==== Sys2Proof/Machine/Encoder.lean ====
section
/-! DEFINITION. The digit encoder and the decimal decomposition of 41_encoder.md: pure functions, and ENCODE_DIGIT. -/

namespace Sys2Proof.Machine

/-- R110: `SEG_TABLE[digit]`, for a digit in 0..15. -/
def encodeDigit (t : SegTable) (digit : Fin 16) : Byte := readSegRom t digit

/-- R115: `place(i) = length - 1 - i`. -/
def place (length i : Nat) : Nat := length - 1 - i

/-- R115: `dec_digit(num, length, i) = (num / 10^place(i)) mod 10`. -/
def decDigit (num length i : Nat) : Fin 16 :=
  ⟨num / 10 ^ place length i % 10, by omega⟩

/-- R116: `blank(num, lz, length, i)`. -/
def blank (num : Nat) (lz : Bool) (length i : Nat) : Bool :=
  !lz && decide (0 < place length i) && decide (num < 10 ^ place length i)

/-- R117: `dec_segments(num, lz, length)`, before the colon is applied. -/
def decSegments (t : SegTable) (num : Nat) (lz : Bool) (length : Nat) : List Byte :=
  (List.range length).map fun i =>
    if blank num lz length i then 0x00 else encodeDigit t (decDigit num length i)

/-- ENCODE_DIGIT (R110): a lookup, with no pin event, in either PHASE. -/
def execEncodeDigit (digit : Int) (s : State) : Result :=
  perform 0x10 s <|
  require (isDigit digit) (.refuse .digit) <|
  .ok (giveResult (.seg (encodeDigit s.cfg.segTable (Fin.ofNat 16 digit.toNat))) s)

end Sys2Proof.Machine
end

