-- ==== Sys2Proof/Machine/Transport.lean ====
section
/-! DEFINITION. The Transport operations of 40_transport.md: BIT_DELAY, START, STOP and WRITE_BYTE. Each has a body, which
the Display Controller performs too, and a meaning, which checks first. -/

namespace Sys2Proof.Machine

/-! ## Bodies -/

/-- R84, after its check. -/
def startBody (s : State) : State :=
  let s := drive .dio .high s
  let s := drive .clk .high s
  let s := delay s
  let s := drive .dio .low s
  let s := delay s
  { s with phase := .framed }

/-- R86, after its check; the order of the last two drives is conflict C4's. -/
def stopBody (s : State) : State :=
  let s := drive .dio .low s
  let s := drive .clk .low s
  let s := delay s
  let s := drive .clk .high s
  let s := delay s
  let s := drive .dio .high s
  let s := delay s
  { s with phase := .idle }

/-- R88: one bit cell. -/
def bitCell (x : Bool) (s : State) : State :=
  let s := drive .clk .low s
  let s := drive .dio (Level.ofBit x) s
  let s := delay s
  let s := drive .clk .high s
  delay s

/-- R87: the bit cells of some bits, in order. -/
def sendBits (bits : List Bool) (s : State) : State := bits.foldl (fun s x => bitCell x s) s

/-- R89: the acknowledgement phase up to the sample. -/
def ackRelease (s : State) : State :=
  let s := drive .clk .low s
  let s := releaseDio s
  let s := delay s
  let s := drive .clk .high s
  delay s

/-- R89: the falling edge that completes the pulse. -/
def ackFinish (s : State) : State := delay (drive .clk .low s)

/-- R89: the acknowledgement phase, with the sampled level. -/
def ackPhase (s : State) : Level × State :=
  let r := sampleDio (ackRelease s)
  (r.1, ackFinish r.2)

/-- R87, after its checks: the sampled level and the state. -/
def writeByteBody (b : Byte) (s : State) : Level × State := ackPhase (sendBits (bitsLsbFirst b) s)

/-- R134, R136: WRITE_BYTE inside a Display Controller operation, whose ACK result is discarded. -/
def sendByte (b : Byte) (s : State) : State := (writeByteBody b s).2

/-- WRITE_BYTE as the host sees it: the ACK result is returned. -/
def sendByteForHost (b : Byte) (s : State) : State :=
  let r := writeByteBody b s
  giveResult (.ack (acknowledged r.1)) r.2

/-! ## Meanings -/

/-- BIT_DELAY (R81). -/
def execBitDelay (s : State) : Result :=
  perform 0x01 s (.ok (delay s))

/-- START (R84). -/
def execStart (s : State) : Result :=
  perform 0x02 s <|
  require (s.phase = .idle) (.raise .framingStart) <|
  .ok (startBody s)

/-- STOP (R86). -/
def execStop (s : State) : Result :=
  perform 0x03 s <|
  require (s.phase = .framed) (.raise .framingIdle) <|
  .ok (stopBody s)

/-- WRITE_BYTE (R87). -/
def execWriteByte (b : Int) (s : State) : Result :=
  perform 0x04 s <|
  require (isByte b) (.refuse .byte) <|
  require (s.phase = .framed) (.raise .framingIdle) <|
  .ok (sendByteForHost (toByte b) s)

end Sys2Proof.Machine
end

