-- ==== Sys2Proof/Machine/Display.lean ====
section
/-! DEFINITION. The Display Controller operations of 42_display.md: SET_BRIGHTNESS, SET_COLON, SET_SEGMENTS, SHOW_NUMBER_DEC
and CLEAR. -/

namespace Sys2Proof.Machine

/-! ## Bodies -/

/-- R72: a frame is START, then its bytes, then STOP. -/
def sendFrame (bytes : List Byte) (s : State) : State :=
  stopBody (bytes.foldl (fun s b => sendByte b s) (startBody s))

/-- R134, R135: the three frames of a display write, in the order F_DATA, F_ADDR, F_CTRL, for the control byte formed
at entry. -/
def sendDisplay (segs : List Byte) (pos : Nat) (ctrl : Byte) (s : State) : State :=
  let s := sendFrame [dataCommand] s
  let s := sendFrame (addressByte pos :: segs) s
  sendFrame [ctrl] s

/-- R134 from the read of BRIGHT on, which is read once. -/
def displayWrite (segs : List Byte) (pos : Nat) (s : State) : Course :=
  match readBright s with
  | .error k => .error k
  | .ok (v, s) => .ok (sendDisplay segs pos (controlByte v) s)

/-! ## Meanings -/

/-- SET_BRIGHTNESS (R131): no pin event, in either PHASE. -/
def execSetBrightness (level : Int) (on : Bool) (s : State) : Result :=
  perform 0x20 s <|
  require (decide (0 ≤ level)) (.refuse .level) <|
  .ok { s with bright := .held (brightByte level on) }

/-- SET_COLON (R133): no pin event, in either PHASE. -/
def execSetColon (on : Bool) (s : State) : Result :=
  perform 0x21 s (.ok { s with colon := .held on })

/-- SET_SEGMENTS (R134). -/
def execSetSegments (segments : List Int) (length pos : Int) (s : State) : Result :=
  perform 0x22 s <|
  require (isSegmentsLength length) (.refuse .length) <|
  require (isPosition pos) (.refuse .pos) <|
  require (fitsDisplay length pos) (.refuse .range) <|
  require (segmentsOk segments length) (.refuse .segments) <|
  require (s.phase = .idle) (.raise .framingStart) <|
  displayWrite (segmentBytes segments length) pos.toNat s

/-- SHOW_NUMBER_DEC (R140). -/
def execShowNumberDec (num : Int) (lz : Bool) (length pos : Int) (s : State) : Result :=
  perform 0x23 s <|
  require (isDecimalLength length) (.refuse .length) <|
  require (isPosition pos) (.refuse .pos) <|
  require (fitsDisplay length pos) (.refuse .range) <|
  require (numFits num length) (.refuse .num) <|
  require (s.phase = .idle) (.raise .framingStart) <|
  match readColon s with
  | .error k => .error k
  | .ok (c, s) =>
    displayWrite (applyColon c pos.toNat (decSegments s.cfg.segTable num.toNat lz length.toNat)) pos.toNat s

/-- CLEAR (R145): SET_SEGMENTS([0x00, 0x00, 0x00, 0x00], 4, 0) with its checks, under its own selector. -/
def execClear (s : State) : Result :=
  perform 0x24 s <|
  require (s.phase = .idle) (.raise .framingStart) <|
  displayWrite [0x00, 0x00, 0x00, 0x00] 0 s

end Sys2Proof.Machine
end

