-- ==== Sys2Proof/Machine/WireBytes.lean ====
section
/-! DEFINITION. The wire bytes of 30_encoding.md. A byte reaches the wire through WRITE_BYTE alone, which may send "any byte
0x00..0xFF in any position" (R73), so what the engine does for one is what WRITE_BYTE does for it (log 4); what the
reference receiver makes of the frame it stands in is Machine/Receiver.lean's. -/

namespace Sys2Proof.Machine

/-- The transmission of a byte by WRITE_BYTE (R87), whose operand domain every byte is in. -/
def transmit (b : Byte) (s : State) : Result :=
  perform 0x04 s <|
  require (s.phase = .framed) (.raise .framingIdle) <|
  .ok (sendByteForHost b s)

/-- The data command 0x40 (R66). -/
def execCmdData (s : State) : Result := transmit dataCommand s

/-- The display-control command 0x80 | on | level (R67). -/
def execCmdDispCtrl (on : Bool) (level : BitVec 3) (s : State) : Result := transmit (dispCtrlCommand on level) s

/-- The address command 0xC0 | pos (R68). -/
def execCmdAddr (pos : BitVec 2) (s : State) : Result := transmit (addrCommand pos) s

/-- A segment byte, sent verbatim (R70, R137). -/
def execSegData (b : Byte) (s : State) : Result := transmit b s

end Sys2Proof.Machine
end

