-- ==== Sys2Proof/Machine/Dispatch.lean ====
section
/-! DEFINITION. One arm per constructor of Instr. -/

namespace Sys2Proof.Machine

def exec (i : Instr) (s : State) : Host.Outcome State Fault Refusal :=
  match i with
  | .construct clk dio => Sys2Proof.Machine.execConstruct clk dio s
  | .bitDelay => Sys2Proof.Machine.execBitDelay s
  | .start => Sys2Proof.Machine.execStart s
  | .stop => Sys2Proof.Machine.execStop s
  | .writeByte b => Sys2Proof.Machine.execWriteByte b s
  | .encodeDigit digit => Sys2Proof.Machine.execEncodeDigit digit s
  | .setBrightness level on => Sys2Proof.Machine.execSetBrightness level on s
  | .setColon on => Sys2Proof.Machine.execSetColon on s
  | .setSegments segments length pos => Sys2Proof.Machine.execSetSegments segments length pos s
  | .showNumberDec num lz length pos => Sys2Proof.Machine.execShowNumberDec num lz length pos s
  | .clear => Sys2Proof.Machine.execClear s
  | .cmdData => Sys2Proof.Machine.execCmdData s
  | .cmdDispCtrl on level => Sys2Proof.Machine.execCmdDispCtrl on level s
  | .cmdAddr pos => Sys2Proof.Machine.execCmdAddr pos s
  | .segData b => Sys2Proof.Machine.execSegData b s

end Sys2Proof.Machine
end

