-- ==== Sys2Proof/Machine/Step.lean ====
section
/-! DEFINITION. One step: the host issues its next operation and the engine performs it to completion (R15, R48). -/

namespace Sys2Proof.Machine

/-- R165 gives the order: a faulted or refused state takes no step; then a reserved selector; then the operation. There
is no program counter (R21): the host's remaining operations are its position, and a step takes the first of them. -/
def step (s : State) : Host.Outcome State Fault Refusal :=
  unlessStopped s <|
  match s.prog with
  | [] => .refused .programEnded
  | slot :: rest =>
    match decode slot with
    | .ok i => exec i { s with prog := rest }
    | .error (.reservedSelector op) => .next (refuse .opsel op { s with prog := rest })
    | .error (.illTypedOperands op) => .refused (.illTypedOperands op)
    | .error (.notACommand b) => .refused (.notACommand b)

/-- A word of the opcode table as the host's next operation. -/
def State.withFetchWord (s : State) (_nbits w : Nat) : State :=
  { s with prog := slotOfTableByte (BitVec.ofNat 8 w) :: s.prog }

end Sys2Proof.Machine
end

