-- ==== Sys2Proof/Machine/Assembly.lean ====
section
/-! DEFINITION. The assembly syntax of 30_encoding.md R64: "one operation per line, `MNEMONIC operand, operand, ...`", read
from characters to operation records. -/

namespace Sys2Proof.Machine

/-- R12, R61: the mnemonics. -/
def mnemonicTable : List (String × HostOpcode) :=
  [("CONSTRUCT", .construct), ("BIT_DELAY", .bitDelay), ("START", .start), ("STOP", .stop), ("WRITE_BYTE", .writeByte),
   ("ENCODE_DIGIT", .encodeDigit), ("SET_BRIGHTNESS", .setBrightness), ("SET_COLON", .setColon),
   ("SET_SEGMENTS", .setSegments), ("SHOW_NUMBER_DEC", .showNumberDec), ("CLEAR", .clear)]

def isBlank (c : Char) : Bool := c == ' ' || c == '\t'

/-- The text without the blanks around it. -/
def trim (cs : List Char) : List Char := ((cs.dropWhile isBlank).reverse.dropWhile isBlank).reverse

/-- R64: "A comment starts with `;`". -/
def dropComment (cs : List Char) : List Char := cs.takeWhile (· != ';')

/-- The digits, each at the place of its value. -/
def numeralDigits : List Char := "0123456789abcdef".toList

/-- The value of a digit of a base, in either case (log 15). -/
def digitOf (base : Nat) (c : Char) : Option Nat := (numeralDigits.take base).idxOf? c.toLower

/-- A numeral of at least one digit, most significant first. -/
def readNumeral (base : Nat) (cs : List Char) : Option Nat :=
  if cs = [] then none else (cs.mapM (digitOf base)).map (List.foldl (base * · + ·) 0)

/-- R64: "integers in decimal or `0x` hex". -/
def readNat (cs : List Char) : Option Nat :=
  match cs with
  | '0' :: 'x' :: rest => readNumeral 16 rest
  | _ => readNumeral 10 cs

/-- An integer with its sign. -/
def readInt (cs : List Char) : Option Int :=
  match cs with
  | '-' :: rest => (readNat rest).map (fun n => -(n : Int))
  | _ => (readNat cs).map (fun n => (n : Int))

/-- Text cut at its commas, but not at those inside brackets. -/
def splitOperands (inside : Bool) (sofar : List Char) : List Char → List (List Char)
  | [] => [trim sofar.reverse]
  | c :: rest =>
    if c == ',' && !inside then trim sofar.reverse :: splitOperands false [] rest
    else splitOperands (if c == '[' then true else if c == ']' then false else inside) (c :: sofar) rest

/-- The integers of a bracketed list. -/
def readInts (cs : List Char) : Option (List Int) :=
  if trim cs = [] then some [] else (splitOperands false [] cs).mapM readInt

/-- R64: an integer, a Boolean `true`/`false`, or "a segment list in brackets". -/
def readOperand (cs : List Char) : Option Operand :=
  if cs = "true".toList then some (.bool true)
  else if cs = "false".toList then some (.bool false)
  else
    match cs with
    | '[' :: rest => if rest.getLast? = some ']' then (readInts rest.dropLast).map Operand.ints else none
    | _ => (readInt cs).map Operand.int

/-- The operands of CONSTRUCT are pin identifiers (R61). -/
def asPin : Operand → Operand
  | .int n => if 0 ≤ n then .pin ⟨n.toNat⟩ else .int n
  | o => o

/-- The operands after a mnemonic. -/
def readOperands (c : HostOpcode) (cs : List Char) : Option (List Operand) :=
  if trim cs = [] then some []
  else ((splitOperands false [] cs).mapM readOperand).map (fun os => if c = .construct then os.map asPin else os)

/-- One line: an operation, nothing (a blank or comment line), or no assembly at all. -/
def readLine (line : List Char) : Option (List HostOp) :=
  let text := trim (dropComment line)
  if text = [] then some []
  else
    let name := text.takeWhile (fun c => !isBlank c)
    match mnemonicTable.find? (fun row => row.1.toList == name) with
    | none => none
    | some (_, c) => (readOperands c (text.dropWhile (fun c => !isBlank c))).map (fun os => [⟨c.opsel, os⟩])

/-- A program text, line by line, as the host's operation list. -/
def readProgram (lines : List String) : Option (List Slot) :=
  (lines.mapM (fun l => readLine l.toList)).map (fun ops => ops.flatten.map Slot.op)

end Sys2Proof.Machine
end

