-- ==== Sys2Proof/Machine/Memory.lean ====
section
/-! DEFINITION. Byte memory as a list of cells in one canonical form. The engine has no data memory (20_memory.md R40);
the reference receiver's display memory (42_display.md R150) is held in this form. -/

namespace Sys2Proof.Machine

/-- Cells in strictly rising order of address. An address that is not listed holds no value (UNKNOWN, R150), so no
listed byte equals what an unlisted address reads as. -/
abbrev Memory := List Host.Cell

/-- The addresses rise strictly. -/
def Memory.wf : Memory → Bool
  | [] => true
  | [_] => true
  | (a, _) :: (a', b') :: rest => decide (a < a') && Memory.wf ((a', b') :: rest)

/-- `MemRead(addr, 1)`; no value where nothing was written. -/
def Memory.read (a : Nat) : Memory → Option Byte
  | [] => none
  | (a', b) :: rest => if a = a' then some b else Memory.read a rest

/-- `MemWrite(addr, 1, v)` (R11). -/
def Memory.write (a : Nat) (v : Byte) : Memory → Memory
  | [] => [(a, v)]
  | (a', b) :: rest =>
    if a < a' then (a, v) :: (a', b) :: rest
    else if a = a' then (a, v) :: rest
    else (a', b) :: Memory.write a v rest

/-- Successive bytes to successive addresses (R43, R46). -/
def Memory.writeRun (a : Nat) : List Byte → Memory → Memory
  | [], m => m
  | v :: vs, m => Memory.writeRun (a + 1) vs (Memory.write a v m)

end Sys2Proof.Machine
end

