-- ==== Sys2Proof/Machine/Receiver.lean ====
section
/-! DEFINITION. What TRACE says on the wire: the frames it carries, read off its pin events alone, and the informative
reference receiver of 42_display.md R150 to R152, a function of those frames. No rule of the engine depends on either. -/

namespace Sys2Proof.Machine

/-! ## From pin events to frames -/

/-- A wire observer's memory: the level of each line as far as the events tell it, the bytes of the open frame, the data
bits since the last whole byte, and the frames closed so far. -/
structure WireView where
  clk     : LineLevel
  dio     : LineLevel
  current : Option (List Byte)
  bits    : List Bool
  closed  : List (List Byte)
  deriving DecidableEq, Repr

/-- Nothing seen yet. -/
def WireView.blank : WireView := ⟨.unknown, .unknown, none, [], []⟩

/-- The byte of eight bits in wire order (R42). -/
def byteOfBits (bits : List Bool) : Byte := BitVec.ofNat 8 (bits.foldr (fun x n => x.toNat + 2 * n) 0)

/-- CLK driven to a level. A clock pulse inside a frame carries a data bit, which is the level DIO was driven to while
CLK was low (R88); the ninth pulse of a byte is its acknowledgement (R89) and completes it. Taking the bit at the rise of
CLK is a DESIGN CHOICE (log 9): DIO holds it as long as CLK is high (R93), so either edge of the pulse would do. -/
def WireView.seeClk (v : Level) (w : WireView) : WireView :=
  match w.clk, v, w.current with
  | .driven .low, .high, some bytes =>
    if w.bits.length = 8 then
      { w with clk := .driven v, current := some (bytes ++ [byteOfBits w.bits]), bits := [] }
    else
      match w.dio with
      | .driven x => { w with clk := .driven v, bits := w.bits ++ [x == .high] }
      | .unknown => { w with clk := .driven v }
  | _, _, _ => { w with clk := .driven v }

/-- DIO driven to a level. While CLK is high, high to low is the start condition (R85) and low to high the stop
condition (R92), which ends the open frame. -/
def WireView.seeDio (v : Level) (w : WireView) : WireView :=
  match w.clk, w.dio, v with
  | .driven .high, .driven .high, .low => { w with dio := .driven v, current := some [], bits := [] }
  | .driven .high, .driven .low, .high =>
    { w with dio := .driven v, current := none, bits := [], closed := w.closed ++ w.current.toList }
  | _, _, _ => { w with dio := .driven v }

/-- One event on the lines `clk` and `dio`. -/
def WireView.see (clk dio : PinId) (w : WireView) : PinEvent → WireView
  | .setHigh p => if p = clk then w.seeClk .high else if p = dio then w.seeDio .high else w
  | .setLow p => if p = clk then w.seeClk .low else if p = dio then w.seeDio .low else w
  | .cfgInPullup p => if p = dio then { w with dio := .unknown } else w
  | .cfgOut _ => w
  | .read _ _ => w
  | .delay => w

/-- What a trace shows. -/
def wireView (clk dio : PinId) (trace : List PinEvent) : WireView := trace.foldl (WireView.see clk dio) WireView.blank

/-- What TRACE shows on an instance's own lines. -/
def State.wire (s : State) : WireView := wireView s.clkPin s.dioPin s.trace

/-- R151: the frames of TRACE, "each frame being the bytes between one START and the next STOP". -/
def State.frames (s : State) : List (List Byte) := s.wire.closed

/-! ## The reference receiver -/

/-- R150: RX_AUTOINC, DISP and RX_CTRL; `none` and an unlisted address of DISP are UNKNOWN. -/
structure Receiver where
  autoInc : Option Bool
  disp    : Memory
  ctrl    : Option Byte
  deriving DecidableEq, Repr

/-- R150: all of it "initially UNKNOWN". -/
def Receiver.initial : Receiver := ⟨none, [], none⟩

/-- R151: one frame. A first byte is told as R66 to R68 lay it out (DEDUCED, log 10: `a` is at most 3). -/
def Receiver.onFrame (r : Receiver) (frame : List Byte) : Receiver :=
  match frame with
  | [] => Receiver.initial
  | b :: rest =>
    match decodeCommand b with
    | some .cmdData => if rest = [] then { r with autoInc := some true } else Receiver.initial
    | some (.cmdAddr a) =>
      if r.autoInc = some true ∧ a.toNat + rest.length ≤ 4 then
        { r with disp := Memory.writeRun a.toNat rest r.disp }
      else Receiver.initial
    | some (.cmdDispCtrl _ _) => if rest = [] then { r with ctrl := some (b &&& 0x0F) } else Receiver.initial
    | _ => Receiver.initial

/-- R151: the frames in TRACE order. -/
def Receiver.ofFrames (frames : List (List Byte)) : Receiver := frames.foldl Receiver.onFrame Receiver.initial

/-- R150: the reference receiver of an instance, "a function from the list of frames the engine sent". -/
def State.receiver (s : State) : Receiver := Receiver.ofFrames s.frames

/-! ## Its view (R152) -/

/-- R70: the seven segments. -/
inductive Segment
  | A | B | C | D | E | F | G
  deriving DecidableEq, Repr

/-- R70: "bit0=A, bit1=B, bit2=C, bit3=D, bit4=E, bit5=F, bit6=G". -/
def Segment.bit : Segment → Nat
  | .A => 0
  | .B => 1
  | .C => 2
  | .D => 3
  | .E => 4
  | .F => 5
  | .G => 6

/-- R113: the places of the seven strokes of a digit. -/
inductive Stroke
  | top | upperRight | lowerRight | bottom | lowerLeft | upperLeft | middle
  deriving DecidableEq, Repr

/-- R113 (PRESUMED, log 19): where each segment lies. No rule of the engine depends on it. -/
def Segment.stroke : Segment → Stroke
  | .A => .top
  | .B => .upperRight
  | .C => .lowerRight
  | .D => .bottom
  | .E => .lowerLeft
  | .F => .upperLeft
  | .G => .middle

/-- R70: "A 1 bit lights its segment." -/
def lights (b : Byte) (g : Segment) : Bool := b.getLsbD g.bit

/-- R152: whether position p shows a segment. -/
def Receiver.shows (r : Receiver) (p : Nat) (g : Segment) : Option Bool := (r.disp.read p).map (lights · g)

/-- R152: "the colon is lit when `DISP[1][7] = 1`". -/
def Receiver.colonLit (r : Receiver) : Option Bool := (r.disp.read 1).map (·.getLsbD 7)

/-- R152: "`RX_CTRL[3]` is display on". -/
def Receiver.displayOn (r : Receiver) : Option Bool := r.ctrl.map (·.getLsbD 3)

/-- R152: "`RX_CTRL[2:0]` the brightness level". -/
def Receiver.level (r : Receiver) : Option (BitVec 3) := r.ctrl.map (·.extractLsb' 0 3)

/-! ## Counts and the informative minimum duration (R190) -/

/-- The DELAY events of a trace. -/
def delayCount (events : List PinEvent) : Nat := events.countP (· == .delay)

/-- Whether an event is a READ. -/
def PinEvent.isRead : PinEvent → Bool
  | .read _ _ => true
  | _ => false

/-- The READ events of a trace. -/
def readCount (events : List PinEvent) : Nat := events.countP PinEvent.isRead

/-- R190: "The minimum duration of each operation is its DELAY count times T_BIT". -/
def minDuration (events : List PinEvent) : Nat := delayCount events * Config.tBit

end Sys2Proof.Machine
end

