-- ==== Sys2Proof/Safety.lean ====
section
/-! DEFINITION. The terms claims are stated in: how a run ends (R191), the invariants of the line state and of TRACE, and
the event sequences the rules of 40_transport.md and 42_display.md write out, as plain lists. -/

namespace Sys2Proof.Machine

/-! ## Runs -/

/-- Neither faulted nor refused: the engine may take a step (R165 (1)). -/
abbrev State.running (s : State) : Prop := s.fault = none ∧ s.refused = none

/-- An existing instance that may take a step. -/
abbrev State.ready (s : State) : Prop := s.constructed = true ∧ s.running

/-- R191: how a run ended. -/
inductive RunEnd
  | normal
  | fault (r : FaultRecord)
  | refused (r : RefusalRecord)
  deriving DecidableEq, Repr

/-- R191: a faulted or refused run has ended, whatever is left of the host's list; else the run ends normally "when
every operation in the list has been performed". -/
def State.runEnd? (s : State) : Option RunEnd :=
  match s.fault, s.refused, s.prog with
  | some r, _, _ => some (.fault r)
  | none, some r, _ => some (.refused r)
  | none, none, [] => some .normal
  | none, none, _ :: _ => none

/-- R187, R191: "only STOP returns the bus to idle"; a claim about the receiver takes this as a premise. -/
abbrev State.busIdle (s : State) : Prop := s.phase = .idle

/-! ## Invariants -/

/-- R26, R84 (corner cases), R94, R187: the pins are distinct, CLK is an output, and the lines stand as the phase says.
Between frames DIO is an output and the lines are as CONSTRUCT left them or both high; in a frame they are as START or
as WRITE_BYTE left them. -/
def LineInv (s : State) : Prop :=
  s.constructed = true →
    s.clkPin ≠ s.dioPin ∧ s.clkDir = .out ∧
    match s.phase with
    | .idle =>
      s.dioDir = .out ∧
        ((s.clkLvl = .unknown ∧ s.dioLvl = .unknown) ∨ (s.clkLvl = .driven .high ∧ s.dioLvl = .driven .high))
    | .framed =>
      (s.dioDir = .out ∧ s.clkLvl = .driven .high ∧ s.dioLvl = .driven .low) ∨
        (s.dioDir = .inPullup ∧ s.clkLvl = .driven .low ∧ s.dioLvl = .unknown)

/-- R26, R93: what TRACE shows on the wire is what the line state says, a frame is open on the wire exactly while PHASE
is FRAMED, and no byte is half sent (R45). -/
def WireInv (s : State) : Prop :=
  s.constructed = true →
    s.wire.clk = s.clkLvl ∧ s.wire.dio = s.dioLvl ∧ s.wire.bits = [] ∧
      (s.wire.current.isSome = true ↔ s.phase = .framed)

/-- R80: the engine calls the GPIO capability only on its two pins, never reads CLK and never makes it an input. -/
def PinEvent.allowed (clk dio : PinId) : PinEvent → Prop
  | .cfgOut p => p = clk ∨ p = dio
  | .cfgInPullup p => p = dio
  | .setHigh p => p = clk ∨ p = dio
  | .setLow p => p = clk ∨ p = dio
  | .read p _ => p = dio
  | .delay => True

/-- R80, R182: every event of TRACE is one the port rule allows; before CONSTRUCT there is none. -/
def PortInv (s : State) : Prop :=
  (s.constructed = true → ∀ e ∈ s.trace, e.allowed s.clkPin s.dioPin) ∧ (s.constructed = false → s.trace = [])

/-- R23, R33, R165: BRIGHT holds no value, or draws, only if its parameter says so, and a held byte has bits 7:4 zero
unless BRIGHT_RESET itself gave it; COLON likewise; and "Exactly one fault or refusal is reported". -/
def RegisterInv (s : State) : Prop :=
  (s.constructed = true →
    (match s.bright with
      | .noValue => s.cfg.brightReset = .fault
      | .drawn => s.cfg.brightReset = .draw
      | .held v => v &&& 0xF0 = 0 ∨ s.cfg.brightReset = .value v) ∧
    (match s.colon with
      | .noValue => s.cfg.colonReset = .fault
      | .drawn => s.cfg.colonReset = .draw
      | .held _ => True)) ∧
  (s.fault = none ∨ s.refused = none)

/-! ## The event sequences of the rules -/

/-- R83: the event before a DIO drive when DIO is not an output. -/
def reconfigureEvents (d : PinId) (released : Bool) : List PinEvent := if released then [.cfgOut d] else []

/-- R84. -/
def startEvents (c d : PinId) (released : Bool) : List PinEvent :=
  reconfigureEvents d released ++ [.setHigh d, .setHigh c, .delay, .setLow d, .delay]

/-- R86. -/
def stopEvents (c d : PinId) (released : Bool) : List PinEvent :=
  reconfigureEvents d released ++ [.setLow d, .setLow c, .delay, .setHigh c, .delay, .setHigh d, .delay]

/-- R88. -/
def cellEvents (c d : PinId) (released x : Bool) : List PinEvent :=
  [.setLow c] ++ reconfigureEvents d released ++ [if x then .setHigh d else .setLow d, .delay, .setHigh c, .delay]

/-- R89, with the sampled level. -/
def ackEvents (c d : PinId) (v : Level) : List PinEvent :=
  [.setLow c, .cfgInPullup d, .delay, .setHigh c, .delay, .read d v, .setLow c, .delay]

/-- R87: eight bit cells, `b[0]` first, and the acknowledgement; only the first cell can meet a released DIO. -/
def byteEvents (c d : PinId) (released : Bool) (b : Byte) (v : Level) : List PinEvent :=
  cellEvents c d released (b.getLsbD 0) ++ cellEvents c d false (b.getLsbD 1) ++ cellEvents c d false (b.getLsbD 2) ++
  cellEvents c d false (b.getLsbD 3) ++ cellEvents c d false (b.getLsbD 4) ++ cellEvents c d false (b.getLsbD 5) ++
  cellEvents c d false (b.getLsbD 6) ++ cellEvents c d false (b.getLsbD 7) ++ ackEvents c d v

/-- Whether a DIO drive in this state is preceded by CFG_OUT (R83). -/
abbrev State.released (s : State) : Bool := s.dioDir != .out

/-- The bytes of a frame with their sampled levels: the first meets a driven DIO, the later ones a released one. -/
def bytesEvents (c d : PinId) (released : Bool) : List (Byte × Level) → List PinEvent
  | [] => []
  | (b, v) :: rest => byteEvents c d released b v ++ bytesEvents c d true rest

/-- R72: a frame that follows a driven DIO. -/
def frameEvents (c d : PinId) (bytes : List (Byte × Level)) : List PinEvent :=
  startEvents c d false ++ bytesEvents c d false bytes ++ stopEvents c d (!bytes.isEmpty)

/-- Frames one after the other, their bytes meeting the sampled levels in order. -/
def framesEvents (c d : PinId) : List (List Byte) → List Level → List PinEvent
  | [], _ => []
  | f :: rest, levels => frameEvents c d (f.zip levels) ++ framesEvents c d rest (levels.drop f.length)

/-- R72, R134, R135: F_DATA, F_ADDR and F_CTRL. -/
def displayFrames (pos : Nat) (segs : List Byte) (bright : Byte) : List (List Byte) :=
  [[0x40], (0xC0 ||| BitVec.ofNat 8 pos) :: segs, [0x80 ||| bright]]

/-- The levels of the next n samples. -/
def drawAcks : Nat → Env → List Level × Env
  | 0, e => ([], e)
  | n + 1, e => (e.drawAck.1 :: (drawAcks n e.drawAck.2).1, (drawAcks n e.drawAck.2).2)

/-- R33: reading BRIGHT in this state can give v and leaves the environment e. -/
def BrightReadsAs (s : State) (v : Byte) (e : Env) : Prop :=
  (s.bright = .held v ∧ e = s.env) ∨ (s.bright = .drawn ∧ v = s.env.drawBright.1 ∧ e = s.env.drawBright.2)

/-- R33: reading COLON in this state can give c and leaves the environment e. -/
def ColonReadsAs (s : State) (c : Bool) (e : Env) : Prop :=
  (s.colon = .held c ∧ e = s.env) ∨ (s.colon = .drawn ∧ c = s.env.drawColon.1 ∧ e = s.env.drawColon.2)

/-- R82, R136: an event with the sampled level left out. -/
def PinEvent.withoutLevel : PinEvent → PinEvent
  | .read p _ => .read p .high
  | e => e

/-- The wire byte a table row of that format stands for (R66, R67, R68, R70). -/
def wireByteOf : Instr → Option Byte
  | .cmdData => some 0x40
  | .cmdDispCtrl on level => some (BitVec.ofNat 8 (0x80 + (if on then 0x08 else 0) + level.toNat))
  | .cmdAddr pos => some (BitVec.ofNat 8 (0xC0 + pos.toNat))
  | .segData b => some b
  | _ => none

/-- R190, R96, R135: the pin events an operation emits in a state whose DIO is or is not released, how many are DELAYs
and how many are READs. A wire byte's are those of the WRITE_BYTE that sends it (log 4). -/
def eventCounts (released : Bool) : Instr → Nat × Nat × Nat
  | .construct _ _ => (2, 0, 0)
  | .bitDelay => (1, 1, 0)
  | .start => (5, 2, 0)
  | .stop => (if released then 8 else 7, 3, 0)
  | .writeByte _ => (if released then 49 else 48, 19, 1)
  | .encodeDigit _ => (0, 0, 0)
  | .setBrightness _ _ => (0, 0, 0)
  | .setColon _ => (0, 0, 0)
  | .setSegments _ length _ => (183 + 49 * length.toNat, 72 + 19 * length.toNat, 3 + length.toNat)
  | .showNumberDec _ _ length _ => (183 + 49 * length.toNat, 72 + 19 * length.toNat, 3 + length.toNat)
  | .clear => (379, 148, 7)
  | .cmdData => (if released then 49 else 48, 19, 1)
  | .cmdDispCtrl _ _ => (if released then 49 else 48, 19, 1)
  | .cmdAddr _ => (if released then 49 else 48, 19, 1)
  | .segData _ => (if released then 49 else 48, 19, 1)

/-! ## Which operations write what (the "State written" lines of the operation rules) -/

/-- R134, R140, R145: the display-writing operations. -/
def writesDisplay : Instr → Bool
  | .setSegments _ _ _ => true
  | .showNumberDec _ _ _ _ => true
  | .clear => true
  | .construct _ _ => false
  | .bitDelay => false
  | .start => false
  | .stop => false
  | .writeByte _ => false
  | .encodeDigit _ => false
  | .setBrightness _ _ => false
  | .setColon _ => false
  | .cmdData => false
  | .cmdDispCtrl _ _ => false
  | .cmdAddr _ => false
  | .segData _ => false

/-- R87: the operations that send one byte and return its acknowledgement; the wire bytes by WRITE_BYTE (log 4). -/
def sendsByte : Instr → Bool
  | .writeByte _ => true
  | .cmdData => true
  | .cmdDispCtrl _ _ => true
  | .cmdAddr _ => true
  | .segData _ => true
  | .construct _ _ => false
  | .bitDelay => false
  | .start => false
  | .stop => false
  | .encodeDigit _ => false
  | .setBrightness _ _ => false
  | .setColon _ => false
  | .setSegments _ _ _ => false
  | .showNumberDec _ _ _ _ => false
  | .clear => false

/-- R25: the operations that move PHASE. A display write starts and ends in IDLE. -/
def movesPhase : Instr → Bool
  | .construct _ _ => true
  | .start => true
  | .stop => true
  | .bitDelay => false
  | .writeByte _ => false
  | .encodeDigit _ => false
  | .setBrightness _ _ => false
  | .setColon _ => false
  | .setSegments _ _ _ => false
  | .showNumberDec _ _ _ _ => false
  | .clear => false
  | .cmdData => false
  | .cmdDispCtrl _ _ => false
  | .cmdAddr _ => false
  | .segData _ => false

/-- R26: the operations that write DIO_DIR and the levels. -/
def writesLines (i : Instr) : Bool := movesPhase i || sendsByte i || writesDisplay i

end Sys2Proof.Machine
end

