-- ==== Sys2Proof/Certificates/Slice0/Obligations.lean ====
section
/-! DEFINITION. The statements for the provers, from the numbered rules of spec/. -/

open Sys2Proof Sys2Proof.Machine

/-! ## Reset and construction -/

/-- R180 with R166: the three courses of CONSTRUCT, and everything it leaves. -/
def Obligations.ConstructIsTheReset : Prop :=
  ∀ (s : State) (clk dio : PinId), s.running →
    if s.constructed = true then
      exec (.construct clk dio) s = .next { s with refused := some ⟨.reconstruct, 0x00⟩ }
    else if clk = dio then
      exec (.construct clk dio) s = .next { s with refused := some ⟨.samePin, 0x00⟩ }
    else
      exec (.construct clk dio) s = .next {
        constructed := true
        clkPin := clk
        dioPin := dio
        bright := match s.cfg.brightReset with
          | .fault => .noValue
          | .draw => .drawn
          | .value v => .held v
        colon := match s.cfg.colonReset with
          | .fault => .noValue
          | .draw => .drawn
          | .value c => .held c
        phase := .idle
        clkDir := .out
        dioDir := .out
        clkLvl := .unknown
        dioLvl := .unknown
        trace := s.trace ++ [.cfgOut clk, .cfgOut dio]
        fault := none
        refused := none
        cfg := s.cfg
        env := s.env
        prog := s.prog
        results := s.results }

/-- R33 at the model's reset state: the registers it names, under the default parameters. The pins 2 and 3 are the
model's choice (log 2). -/
def Obligations.ResetStateIsConstructTwoThree : Prop :=
  exec (.construct ⟨2⟩ ⟨3⟩) (State.unconstructed Config.default) = .next State.reset ∧
  State.reset.phase = .idle ∧ State.reset.clkDir = .out ∧ State.reset.dioDir = .out ∧
  State.reset.clkLvl = .unknown ∧ State.reset.dioLvl = .unknown ∧
  State.reset.trace = [.cfgOut State.reset.clkPin, .cfgOut State.reset.dioPin] ∧
  State.reset.fault = none ∧ State.reset.refused = none ∧
  State.reset.bright = .noValue ∧ State.reset.colon = .noValue

/-- R182: before CONSTRUCT every other operation is refused, and after it every CONSTRUCT is. The selector 0x04 under which
a wire byte is refused is the model's choice (log 4). -/
def Obligations.OperationsNeedExactlyOneConstruct : Prop :=
  ∀ (i : Instr) (s : State), s.running →
    ((∀ clk dio, i ≠ .construct clk dio) → s.constructed = false →
      exec i s = .next { s with refused := some ⟨.notConstructed, i.opsel⟩ }) ∧
    (∀ clk dio, s.constructed = true →
      exec (.construct clk dio) s = .next { s with refused := some ⟨.reconstruct, 0x00⟩ })

/-! ## Faults and refusals -/

/-- R161, R28: an operation that sets FAULT changes nothing else, records its own selector, and is the last one. A wire
byte's selector 0x04 is the model's choice (log 4), and so is the fault's being named where REFUSED is set too (log 11). -/
def Obligations.FaultsArePreciseAndSticky : Prop :=
  (∀ (i : Instr) (s t : State), exec i s = .next t → t.fault ≠ s.fault →
    ∃ k, t = { s with fault := some ⟨k, i.opsel⟩ }) ∧
  (∀ (i : Instr) (s : State) (r : FaultRecord), s.fault = some r →
    exec i s = .fault (.engineFaulted r) ∧ step s = .fault (.engineFaulted r))

/-- R163, R29: an operation that sets REFUSED changes nothing else, records its own selector, and is the last one. A wire
byte's selector 0x04 is the model's choice (log 4), and so is that a stopped state's step is a stop by name (log 11). -/
def Obligations.RefusalsArePreciseAndSticky : Prop :=
  (∀ (i : Instr) (s t : State), exec i s = .next t → t.refused ≠ s.refused →
    ∃ k, t = { s with refused := some ⟨k, i.opsel⟩ }) ∧
  (∀ (i : Instr) (s : State) (r : RefusalRecord), s.fault = none → s.refused = some r →
    exec i s = .refused (.engineRefused r) ∧ step s = .refused (.engineRefused r))

/-- R162: the framing checks, on operands in their domains. -/
def Obligations.FramingChecks : Prop :=
  ∀ (i : Instr) (s : State), s.ready → i.wellFormed = true →
    (match i with
      | .start => s.phase = .framed → exec i s = .next { s with fault := some ⟨.framingStart, 0x02⟩ }
      | .setSegments _ _ _ => s.phase = .framed → exec i s = .next { s with fault := some ⟨.framingStart, 0x22⟩ }
      | .showNumberDec _ _ _ _ => s.phase = .framed → exec i s = .next { s with fault := some ⟨.framingStart, 0x23⟩ }
      | .clear => s.phase = .framed → exec i s = .next { s with fault := some ⟨.framingStart, 0x24⟩ }
      | .stop => s.phase = .idle → exec i s = .next { s with fault := some ⟨.framingIdle, 0x03⟩ }
      | .writeByte _ => s.phase = .idle → exec i s = .next { s with fault := some ⟨.framingIdle, 0x04⟩ }
      | .cmdData => s.phase = .idle → exec i s = .next { s with fault := some ⟨.framingIdle, 0x04⟩ }
      | .cmdDispCtrl _ _ => s.phase = .idle → exec i s = .next { s with fault := some ⟨.framingIdle, 0x04⟩ }
      | .cmdAddr _ => s.phase = .idle → exec i s = .next { s with fault := some ⟨.framingIdle, 0x04⟩ }
      | .segData _ => s.phase = .idle → exec i s = .next { s with fault := some ⟨.framingIdle, 0x04⟩ }
      | _ => True)

/-- R164 and R62 seen from the syntax: an existing instance refuses an operation exactly when its operands lie outside
the domain of its rule, whatever else would stop it later. CONSTRUCT is `ConstructIsTheReset`'s. -/
def Obligations.OperandsAreRefusedExactlyOutsideTheirDomain : Prop :=
  ∀ (i : Instr) (s : State), s.ready → (∀ clk dio, i ≠ .construct clk dio) →
    ∃ t, exec i s = .next t ∧ (t.refused = none ↔ i.wellFormed = true)

/-- R63: a step whose operation has a reserved selector refuses it, whether or not the instance exists (R165). -/
def Obligations.ReservedSelectorsAreRefused : Prop :=
  ∀ (s : State) (o : HostOp) (rest : List Slot), s.running → s.prog = .op o :: rest →
    (0x05 ≤ o.opsel.toNat ∧ o.opsel.toNat ≤ 0x0F) ∨ (0x11 ≤ o.opsel.toNat ∧ o.opsel.toNat ≤ 0x1F) ∨
      (0x25 ≤ o.opsel.toNat ∧ o.opsel.toNat ≤ 0xFF) →
    step s = .next { s with prog := rest, refused := some ⟨.opsel, o.opsel⟩ }

/-! ## Decoding and the step -/

/-- A step performs the host's next operation, which it takes off the host's list, and so does a step of a state that
was given an opcode-table word to fetch. -/
def Obligations.StepRunsTheDecodedOperation : Prop :=
  (∀ (s : State) (slot : Slot) (rest : List Slot) (i : Instr), s.running → s.prog = slot :: rest →
    decode slot = .ok i → step s = exec i { s with prog := rest }) ∧
  (∀ (s : State) (nbits w : Nat) (i : Instr), s.running → decodeTableWord nbits w = some i →
    step (s.withFetchWord nbits w) = exec i s)

/-- The step of a running engine never faults, and is refused exactly where the host offers no operation: its list is
over (R191), a wire command is none of the three patterns (R69), or the operands are not those R61 gives the selector.
That these are refusals of the step is the model's choice (log 12), and so is that the patterns are the same three under
BRIGHT_RESET = Draw (log 22). -/
def Obligations.StepStopsOnlyWhereTheHostOffersNoOperation : Prop :=
  ∀ s : State, s.running →
    (∀ f, step s ≠ .fault f) ∧
    (∀ r, step s = .refused r ↔
      (s.prog = [] ∧ r = .programEnded) ∨
      ∃ slot rest, s.prog = slot :: rest ∧
        ((∃ b, decode slot = .error (.notACommand b) ∧ r = .notACommand b) ∨
          ∃ op, decode slot = .error (.illTypedOperands op) ∧ r = .illTypedOperands op))

/-- R82, R191: a run that has ended takes no step; otherwise the host's next operation has one, whatever it is, whatever
its operands and whatever the environment draws: every instruction of a running engine answers a next state. -/
def Obligations.ARunningEngineTakesEveryOperation : Prop :=
  (∀ s : State, s.runEnd?.isSome = true → ∀ t, step s ≠ .next t) ∧
  (∀ (s : State) (slot : Slot) (rest : List Slot) (i : Instr), s.runEnd? = none → s.prog = slot :: rest →
    decode slot = .ok i → ∃ t, step s = .next t) ∧
  (∀ (i : Instr) (s : State), s.running → ∃ t, exec i s = .next t)

/-- R61, R66, R67, R68, R70: some words written out from their encodings, one or more of each format. -/
def Obligations.WordsDecodeAsTheSpecLaysThemOut : Prop :=
  decode (.op ⟨0b00000000, [.pin ⟨2⟩, .pin ⟨3⟩]⟩) = .ok (.construct ⟨2⟩ ⟨3⟩) ∧
  decode (.op ⟨0b00000010, []⟩) = .ok .start ∧
  decode (.op ⟨0b00000100, [.int 0x40]⟩) = .ok (.writeByte 0x40) ∧
  decode (.op ⟨0b00010000, [.int 4]⟩) = .ok (.encodeDigit 4) ∧
  decode (.op ⟨0b00100000, [.int 7]⟩) = .ok (.setBrightness 7 true) ∧
  decode (.op ⟨0b00100011, [.int 42, .bool false, .int 4, .int 0]⟩) = .ok (.showNumberDec 42 false 4 0) ∧
  decode (.wire .command 0b01000000) = .ok .cmdData ∧
  decode (.wire .command 0b10001101) = .ok (.cmdDispCtrl true 5) ∧
  decode (.wire .command 0b11000010) = .ok (.cmdAddr 2) ∧
  decode (.wire .segment 0b11101101) = .ok (.segData 0xED)

/-- Decoding inverts encoding, with every operand at every value, and a slot that decodes is the encoding of what it
decodes to, but for the omitted `on` operand of SET_BRIGHTNESS (R64). -/
def Obligations.DecodeInvertsEncode : Prop :=
  (∀ i : Instr, decode (encode i) = .ok i) ∧
  (∀ (slot : Slot) (i : Instr), decode slot = .ok i →
    slot = encode i ∨ ∃ level, i = .setBrightness level true ∧ slot = .op ⟨0x20, [.int level]⟩)

/-! ## Transport -/

/-- R81. -/
def Obligations.BitDelayEmitsOneDelay : Prop :=
  ∀ s : State, s.ready → exec .bitDelay s = .next { s with trace := s.trace ++ [.delay] }

/-- R84: START emits its sequence, or faults inside a frame. Where DIO is an output, as it always is at START, the
sequence has exactly 5 events. -/
def Obligations.StartEmitsTheStartSequence : Prop :=
  ∀ s : State, s.ready →
    if s.phase = .framed then exec .start s = .next { s with fault := some ⟨.framingStart, 0x02⟩ }
    else
      (LineInv s → s.dioDir = .out) ∧
      exec .start s = .next { s with
        trace := s.trace ++ (if s.dioDir = .out then [] else [.cfgOut s.dioPin]) ++
          [.setHigh s.dioPin, .setHigh s.clkPin, .delay, .setLow s.dioPin, .delay]
        dioDir := .out
        clkLvl := .driven .high
        dioLvl := .driven .low
        phase := .framed }

/-- R86: STOP emits its sequence, with CFG_OUT first if DIO was released, or faults outside a frame. -/
def Obligations.StopEmitsTheStopSequence : Prop :=
  ∀ s : State, s.ready →
    if s.phase = .idle then exec .stop s = .next { s with fault := some ⟨.framingIdle, 0x03⟩ }
    else
      exec .stop s = .next { s with
        trace := s.trace ++ (if s.dioDir = .out then [] else [.cfgOut s.dioPin]) ++
          [.setLow s.dioPin, .setLow s.clkPin, .delay, .setHigh s.clkPin, .delay, .setHigh s.dioPin, .delay]
        dioDir := .out
        clkLvl := .driven .high
        dioLvl := .driven .high
        phase := .idle }

/-- R87, R88, R89, R90: WRITE_BYTE refuses, faults, or sends its eight bits least significant first, samples the level
the environment draws and returns whether it is low; nothing else depends on the level. -/
def Obligations.WriteByteSendsEightBitsAndSamples : Prop :=
  ∀ (s : State) (b : Int), s.ready →
    if ¬ (0 ≤ b ∧ b ≤ 255) then exec (.writeByte b) s = .next { s with refused := some ⟨.byte, 0x04⟩ }
    else if s.phase = .idle then exec (.writeByte b) s = .next { s with fault := some ⟨.framingIdle, 0x04⟩ }
    else
      exec (.writeByte b) s = .next { s with
        trace := s.trace ++ byteEvents s.clkPin s.dioPin s.released (BitVec.ofInt 8 b) s.env.drawAck.1
        dioDir := .inPullup
        clkLvl := .driven .low
        dioLvl := .unknown
        env := s.env.drawAck.2
        results := s.results ++ [.ack (decide (s.env.drawAck.1 = .low))] }

/-- R66 to R68, R70 with R73: in a frame a wire byte of the table is sent as WRITE_BYTE sends it; the byte's value is the
one its encoding lays out. That a wire byte is an instruction of its own, run by WRITE_BYTE, is the model's choice
(log 4). -/
def Obligations.WireBytesAreSentByWriteByte : Prop :=
  ∀ (i : Instr) (b : Byte) (s : State), wireByteOf i = some b → s.ready → s.phase = .framed →
    exec i s = .next { s with
      trace := s.trace ++ byteEvents s.clkPin s.dioPin s.released b s.env.drawAck.1
      dioDir := .inPullup
      clkLvl := .driven .low
      dioLvl := .unknown
      env := s.env.drawAck.2
      results := s.results ++ [.ack (decide (s.env.drawAck.1 = .low))] } ∧
    exec i s = exec (.writeByte b.toNat) s

/-- R96, R135, R190: how many events, DELAYs and READs each operation emits, and its minimum duration, when it is
performed. The wire bytes' counts are those of WRITE_BYTE, which sends them by the model's choice (log 4). -/
def Obligations.OperationsEmitTheirCounts : Prop :=
  ∀ (i : Instr) (s t : State), LineInv s → exec i s = .next t → t.running →
    ∃ new, t.trace = s.trace ++ new ∧
      new.length = (eventCounts s.released i).1 ∧
      delayCount new = (eventCounts s.released i).2.1 ∧
      readCount new = (eventCounts s.released i).2.2 ∧
      minDuration new = (eventCounts s.released i).2.1 * Config.tBit

/-! ## Encoder -/

/-- R110, R41: ENCODE_DIGIT returns the table's entry and writes no register and emits no event, in either phase. -/
def Obligations.EncodeDigitLooksUpTheTable : Prop :=
  ∀ (s : State) (digit : Int), s.ready →
    if ¬ (0 ≤ digit ∧ digit ≤ 15) then
      exec (.encodeDigit digit) s = .next { s with refused := some ⟨.digit, 0x10⟩ }
    else
      ∃ b, s.cfg.segTable.entries[digit.toNat]? = some b ∧
        exec (.encodeDigit digit) s = .next { s with results := s.results ++ [.seg b] }

/-- R112: every table the model admits has 16 entries with bit 7 clear, pairwise distinct; a list of bytes that breaks
one of these is rejected; and no operation changes the table. -/
def Obligations.SegmentTableIsInjectiveAndFixed : Prop :=
  (∀ t : SegTable, t.entries.length = 16 ∧ (∀ b ∈ t.entries, b.getLsbD 7 = false) ∧
    (∀ d e : Fin 16, readSegRom t d = readSegRom t e → d = e)) ∧
  (∀ l : List Byte, (SegTable.ofList? l).isSome = true ↔
    l.length = 16 ∧ (∀ b ∈ l, b.getLsbD 7 = false) ∧ l.Nodup) ∧
  (∀ (i : Instr) (s t : State), exec i s = .next t → t.cfg = s.cfg)

/-- R115: the digits are those of the number, most significant first: weighted by their places they add up to it. -/
def Obligations.DecimalDigitsAddUpToTheNumber : Prop :=
  ∀ num length : Nat, num < 10 ^ length →
    (∀ i, i < length → (decDigit num length i).val = num / 10 ^ (length - 1 - i) % 10) ∧
    ((List.range length).map (fun i => (decDigit num length i).val * 10 ^ (length - 1 - i))).sum = num

/-- R118, R116: the blanks are a prefix, never the units place, and there are `length - max(1, ndigits(num))` of them. -/
def Obligations.BlanksFormAPrefix : Prop :=
  ∀ num length : Nat, 1 ≤ length → num < 10 ^ length →
    (∀ i j, j < i → i < length → blank num false length i = true → blank num false length j = true) ∧
    (List.range length).countP (blank num false length) = length - max 1 (Nat.digits 10 num).length ∧
    blank num false length (length - 1) = false ∧
    (∀ i, blank num true length i = false)

/-! ## Display Controller -/

/-- R131, R132: SET_BRIGHTNESS masks the level and overwrites the whole of BRIGHT, in either phase, with no event; an
omitted `on` operand is `true`. -/
def Obligations.SetBrightnessWritesBright : Prop :=
  ∀ (s : State) (level : Int) (on : Bool), s.ready →
    decode (.op ⟨0x20, [.int level, .bool on]⟩) = .ok (.setBrightness level on) ∧
    decode (.op ⟨0x20, [.int level]⟩) = .ok (.setBrightness level true) ∧
    if level < 0 then exec (.setBrightness level on) s = .next { s with refused := some ⟨.level, 0x20⟩ }
    else
      exec (.setBrightness level on) s =
        .next { s with bright := .held (BitVec.ofNat 8 (level.toNat % 8 + if on then 8 else 0)) }

/-- R133. -/
def Obligations.SetColonWritesColon : Prop :=
  ∀ (s : State) (on : Bool), s.ready → exec (.setColon on) s = .next { s with colon := .held on }

/-- R134, R165: SET_SEGMENTS stops at the first check that applies; otherwise it sends its three frames with the byte
read from BRIGHT, sampling one level a byte, and changes nothing else. -/
def Obligations.SetSegmentsFollowsItsRule : Prop :=
  ∀ (s : State) (segments : List Int) (length pos : Int), s.ready → LineInv s →
    if ¬ (0 ≤ length ∧ length ≤ 4) then
      exec (.setSegments segments length pos) s = .next { s with refused := some ⟨.length, 0x22⟩ }
    else if ¬ (0 ≤ pos ∧ pos ≤ 3) then
      exec (.setSegments segments length pos) s = .next { s with refused := some ⟨.pos, 0x22⟩ }
    else if 4 < pos + length then
      exec (.setSegments segments length pos) s = .next { s with refused := some ⟨.range, 0x22⟩ }
    else if (segments.length : Int) < length ∨ ∃ x ∈ segments.take length.toNat, ¬ (0 ≤ x ∧ x ≤ 255) then
      exec (.setSegments segments length pos) s = .next { s with refused := some ⟨.segments, 0x22⟩ }
    else if s.phase = .framed then
      exec (.setSegments segments length pos) s = .next { s with fault := some ⟨.framingStart, 0x22⟩ }
    else if s.bright = .noValue then
      exec (.setSegments segments length pos) s = .next { s with fault := some ⟨.uninitBright, 0x22⟩ }
    else
      ∃ v e, BrightReadsAs s v e ∧
      exec (.setSegments segments length pos) s = .next { s with
        trace := s.trace ++ framesEvents s.clkPin s.dioPin
          (displayFrames pos.toNat ((segments.take length.toNat).map (BitVec.ofInt 8)) v)
          (drawAcks (3 + length.toNat) e).1
        clkLvl := .driven .high
        dioLvl := .driven .high
        env := (drawAcks (3 + length.toNat) e).2 }

/-- R140, R141, R116, R117, R165: SHOW_NUMBER_DEC stops at the first check that applies; otherwise it sends, to each
position from `pos`, the decimal digit or a blank, with bit 7 set on the byte for display position 1 alone and only if
COLON reads true. That a drawn BRIGHT is drawn once, and a drawn COLON also where position 1 is not written, is the
model's choice (log 7). -/
def Obligations.ShowNumberDecFollowsItsRule : Prop :=
  ∀ (s : State) (num : Int) (lz : Bool) (length pos : Int), s.ready → LineInv s →
    if ¬ (1 ≤ length ∧ length ≤ 4) then
      exec (.showNumberDec num lz length pos) s = .next { s with refused := some ⟨.length, 0x23⟩ }
    else if ¬ (0 ≤ pos ∧ pos ≤ 3) then
      exec (.showNumberDec num lz length pos) s = .next { s with refused := some ⟨.pos, 0x23⟩ }
    else if 4 < pos + length then
      exec (.showNumberDec num lz length pos) s = .next { s with refused := some ⟨.range, 0x23⟩ }
    else if ¬ (0 ≤ num ∧ num < 10 ^ length.toNat) then
      exec (.showNumberDec num lz length pos) s = .next { s with refused := some ⟨.num, 0x23⟩ }
    else if s.phase = .framed then
      exec (.showNumberDec num lz length pos) s = .next { s with fault := some ⟨.framingStart, 0x23⟩ }
    else if s.colon = .noValue then
      exec (.showNumberDec num lz length pos) s = .next { s with fault := some ⟨.uninitColon, 0x23⟩ }
    else if s.bright = .noValue then
      exec (.showNumberDec num lz length pos) s = .next { s with fault := some ⟨.uninitBright, 0x23⟩ }
    else
      ∃ c e v e' seq, ColonReadsAs s c e ∧ BrightReadsAs { s with env := e } v e' ∧
      seq.length = length.toNat ∧
      (∀ i, i < length.toNat → ∃ b,
        (if lz = false ∧ 0 < length.toNat - 1 - i ∧ num.toNat < 10 ^ (length.toNat - 1 - i) then b = 0x00
          else s.cfg.segTable.entries[num.toNat / 10 ^ (length.toNat - 1 - i) % 10]? = some b) ∧
        seq[i]? = some (if c = true ∧ pos.toNat + i = 1 then b ||| 0x80 else b)) ∧
      exec (.showNumberDec num lz length pos) s = .next { s with
        trace := s.trace ++ framesEvents s.clkPin s.dioPin (displayFrames pos.toNat seq v)
          (drawAcks (3 + length.toNat) e').1
        clkLvl := .driven .high
        dioLvl := .driven .high
        env := (drawAcks (3 + length.toNat) e').2 }

/-- R145: CLEAR is SET_SEGMENTS [0, 0, 0, 0], 4, 0 with that operation's checks under its own selector; BRIGHT and COLON
are unchanged, as every register the update does not name is. -/
def Obligations.ClearIsFourBlankSegments : Prop :=
  ∀ s : State, s.ready → LineInv s →
    if s.phase = .framed then exec .clear s = .next { s with fault := some ⟨.framingStart, 0x24⟩ }
    else if s.bright = .noValue then exec .clear s = .next { s with fault := some ⟨.uninitBright, 0x24⟩ }
    else
      exec .clear s = exec (.setSegments [0, 0, 0, 0] 4 0) s ∧
      ∃ v e, BrightReadsAs s v e ∧
      exec .clear s = .next { s with
        trace := s.trace ++ framesEvents s.clkPin s.dioPin [[0x40], [0xC0, 0, 0, 0, 0], [0x80 ||| v]] (drawAcks 7 e).1
        clkLvl := .driven .high
        dioLvl := .driven .high
        env := (drawAcks 7 e).2 }

/-- R33 under BRIGHT_RESET = Draw: of any two display writes, one after the other, each reads a byte of its own and sends
it. The form of the draws is the model's choice (log 7), and so is the observer of the frames (log 9). -/
def Obligations.DrawnBrightIsDrawnAfresh : Prop :=
  ∀ (i j : Instr) (s : State) (v w : Byte) (rest : List Byte), writesDisplay i = true → writesDisplay j = true →
    i.wellFormed = true → j.wellFormed = true → s.ready → LineInv s → WireInv s → s.phase = .idle →
    s.bright = .drawn → s.colon ≠ .noValue → s.env.brights = v :: w :: rest →
    ∃ t u a b, exec i s = .next t ∧ exec j t = .next u ∧ t.env.brights = w :: rest ∧ u.env.brights = rest ∧
      a.head?.map (· &&& 0xFC) = some 0xC0 ∧ b.head?.map (· &&& 0xFC) = some 0xC0 ∧
      u.frames = s.frames ++ [[0x40], a, [0x80 ||| v], [0x40], b, [0x80 ||| w]]

/-! ## Frames and noninterference over all operations -/

/-- R27: "nothing ever removes" an event from TRACE, nor a result from the host's list. -/
def Obligations.TraceOnlyGrows : Prop :=
  ∀ (i : Instr) (s t : State), exec i s = .next t → s.trace <+: t.trace ∧ s.results <+: t.results

/-- R20 to R30, R34, R35: each register is written only by the operations its rule names. The pins, CLK_DIR and whether
the instance exists: CONSTRUCT. BRIGHT: CONSTRUCT and SET_BRIGHTNESS. COLON: CONSTRUCT and SET_COLON. PHASE: CONSTRUCT,
START and STOP. DIO_DIR and the levels: these, the operations that send a byte and the display writes. TRACE: those and
BIT_DELAY. FAULT and REFUSED: where either changes, nothing else does. Results are ENCODE_DIGIT's and those of the
operations that send one byte; the environment answers these and the display writes. The host's list and the
configuration: no operation. Which of these a wire byte writes follows WRITE_BYTE (log 4). -/
def Obligations.RegistersAreWrittenOnlyByTheirOperations : Prop :=
  ∀ (i : Instr) (s t : State), exec i s = .next t →
    t.cfg = s.cfg ∧ t.prog = s.prog ∧
    ((∀ clk dio, i ≠ .construct clk dio) →
      t.constructed = s.constructed ∧ t.clkPin = s.clkPin ∧ t.dioPin = s.dioPin ∧ t.clkDir = s.clkDir ∧
      ((∀ level on, i ≠ .setBrightness level on) → t.bright = s.bright) ∧
      ((∀ on, i ≠ .setColon on) → t.colon = s.colon)) ∧
    (movesPhase i = false → t.phase = s.phase) ∧
    (writesLines i = false → t.dioDir = s.dioDir ∧ t.clkLvl = s.clkLvl ∧ t.dioLvl = s.dioLvl) ∧
    (writesLines i = false → i ≠ .bitDelay → t.trace = s.trace) ∧
    ((t.fault = s.fault ∧ t.refused = s.refused) ∨ { t with fault := s.fault, refused := s.refused } = s) ∧
    (sendsByte i = false → (∀ digit, i ≠ .encodeDigit digit) → t.results = s.results) ∧
    (sendsByte i = false → writesDisplay i = false → t.env = s.env)

/-- R136, R90, R167: the environment's levels decide the levels of the READ events and the ACK results of WRITE_BYTE and
nothing else: not whether an operation is performed, not any other event, not any register. BRIGHT and COLON are not
drawn, since a drawn byte comes from the environment too. -/
def Obligations.AckLevelsDecideOnlyReadsAndResults : Prop :=
  ∀ (i : Instr) (s t : State) (e : Env), s.bright ≠ .drawn → s.colon ≠ .drawn → exec i s = .next t →
    ∃ t', exec i { s with env := e } = .next t' ∧
      t'.trace.map PinEvent.withoutLevel = t.trace.map PinEvent.withoutLevel ∧
      t'.results.length = t.results.length ∧
      (∀ b, i = .encodeDigit b → t'.results = t.results) ∧
      { t' with trace := t.trace, results := t.results, env := t.env } = t

/-! ## Invariants -/

/-- R26, R84, R94, R187. -/
def Obligations.EveryStepKeepsTheLineInvariant : Prop :=
  ∀ s t : State, LineInv s → step s = .next t → LineInv t

/-- R26, R85, R92, R93: TRACE shows on the wire what the line registers hold, and frames open and close there with
PHASE; so no start or stop condition ever stands inside a byte. -/
def Obligations.EveryStepKeepsTheWireInvariant : Prop :=
  ∀ s t : State, LineInv s ∧ WireInv s ∧ PortInv s → step s = .next t → LineInv t ∧ WireInv t ∧ PortInv t

/-- R80. -/
def Obligations.EveryStepKeepsThePortInvariant : Prop :=
  ∀ s t : State, PortInv s → step s = .next t → PortInv t

/-- R23, R33, R165. That BRIGHT_RESET = Value(v) may give any byte v is the model's choice (log 21). -/
def Obligations.EveryStepKeepsTheRegisterInvariant : Prop :=
  ∀ s t : State, RegisterInv s → step s = .next t → RegisterInv t

/-- The invariants hold after reset, and before CONSTRUCT under any configuration. -/
def Obligations.ResetMeetsTheInvariants : Prop :=
  (LineInv State.reset ∧ WireInv State.reset ∧ PortInv State.reset ∧ RegisterInv State.reset) ∧
  ∀ cfg, LineInv (State.unconstructed cfg) ∧ WireInv (State.unconstructed cfg) ∧ PortInv (State.unconstructed cfg) ∧
    RegisterInv (State.unconstructed cfg)

/-! ## The wire and the reference receiver -/

/-- R42, R85, R87, R92: read off the pin events alone (log 9), START opens a frame, WRITE_BYTE adds exactly its byte to it and
STOP closes it. -/
def Obligations.TransportOperationsOnTheWire : Prop :=
  ∀ s : State, s.ready → LineInv s → WireInv s →
    (s.phase = .idle → ∃ t, exec .start s = .next t ∧ t.wire.current = some [] ∧ t.frames = s.frames) ∧
    (s.phase = .framed → ∃ sent, s.wire.current = some sent ∧
      (∀ b : Int, 0 ≤ b → b ≤ 255 → ∃ t, exec (.writeByte b) s = .next t ∧
        t.wire.current = some (sent ++ [BitVec.ofInt 8 b]) ∧ t.frames = s.frames) ∧
      (∃ t, exec .stop s = .next t ∧ t.wire.current = none ∧ t.frames = s.frames ++ [sent]))

/-- R135, R137, R72: read off the pin events alone (log 9), a SET_SEGMENTS that is performed sends exactly F_DATA, F_ADDR
with its bytes verbatim, and F_CTRL with the byte v that BRIGHT holds or draws. -/
def Obligations.SetSegmentsOnTheWire : Prop :=
  ∀ (s : State) (segments : List Int) (length pos : Int) (v : Byte) (e : Env), s.ready → LineInv s → WireInv s →
    s.phase = .idle → BrightReadsAs s v e → (Instr.setSegments segments length pos).wellFormed = true →
    ∃ t, exec (.setSegments segments length pos) s = .next t ∧ t.wire.current = none ∧
      t.frames = s.frames ++
        [[0x40], BitVec.ofInt 8 (0xC0 + pos) :: (segments.take length.toNat).map (BitVec.ofInt 8), [0x80 ||| v]]

/-- R153, R151, R69: under the reference receiver a SET_SEGMENTS writes exactly its positions, and re-sends the byte v that
BRIGHT holds or draws. A byte that SET_BRIGHTNESS wrote has bits 7:4 zero; of any other, which only `Draw` or, by the
model's choice (log 21), a `Value` of BRIGHT_RESET can give, the control frame is the one 0x80 | x if bits 6:4 are zero, is read as an address frame
of no bytes if it collides with 0xC0..0xC3, and leaves the receiver UNKNOWN otherwise. From the UNKNOWN levels after
CONSTRUCT the observer sees no condition before START's (log 9), which R184 leaves open. -/
def Obligations.SetSegmentsWritesExactlyItsPositions : Prop :=
  ∀ (s : State) (segments : List Int) (length pos : Int) (v : Byte) (e : Env), s.ready → LineInv s → WireInv s →
    s.phase = .idle → BrightReadsAs s v e → (Instr.setSegments segments length pos).wellFormed = true →
    ∃ t, exec (.setSegments segments length pos) s = .next t ∧
      if v &&& 0x70 = 0 ∨ v &&& 0x7C = 0x40 then
        t.receiver.autoInc = some true ∧
        t.receiver.ctrl = (if v &&& 0x70 = 0 then some (v &&& 0x0F) else s.receiver.ctrl) ∧
        ∀ p : Nat, t.receiver.disp.read p =
          if pos.toNat ≤ p ∧ p < pos.toNat + length.toNat then (segments[p - pos.toNat]?).map (BitVec.ofInt 8)
          else s.receiver.disp.read p
      else t.receiver = Receiver.initial

/-- R140, R141, R142, R152 under the reference receiver: position `pos + i` shows the table's glyph of the i-th decimal
digit, or nothing where it is a leading blank; the other positions are as they were; and where position 1 is written,
the colon is lit exactly if COLON reads true. BRIGHT and COLON are held or drawn (log 7); for the byte of BRIGHT (log
21), the observer and the UNKNOWN levels see `SetSegmentsWritesExactlyItsPositions`. -/
def Obligations.ShowNumberDecShowsTheNumber : Prop :=
  ∀ (s : State) (num : Int) (lz : Bool) (length pos : Int) (c : Bool) (e : Env) (v : Byte) (e' : Env),
    s.ready → LineInv s → WireInv s → s.phase = .idle → ColonReadsAs s c e → BrightReadsAs { s with env := e } v e' →
    (Instr.showNumberDec num lz length pos).wellFormed = true →
    ∃ t, exec (.showNumberDec num lz length pos) s = .next t ∧
      if v &&& 0x70 = 0 ∨ v &&& 0x7C = 0x40 then
        (∀ i, i < length.toNat → ∀ g, t.receiver.shows (pos.toNat + i) g =
          some (if blank num.toNat lz length.toNat i then false
            else lights (readSegRom s.cfg.segTable (decDigit num.toNat length.toNat i)) g)) ∧
        (∀ p, ¬ (pos.toNat ≤ p ∧ p < pos.toNat + length.toNat) → t.receiver.disp.read p = s.receiver.disp.read p) ∧
        (pos.toNat ≤ 1 → 1 < pos.toNat + length.toNat → t.receiver.colonLit = some c) ∧
        t.receiver.displayOn = (if v &&& 0x70 = 0 then some (v.getLsbD 3) else s.receiver.displayOn) ∧
        t.receiver.level = (if v &&& 0x70 = 0 then some (v.extractLsb' 0 3) else s.receiver.level)
      else t.receiver = Receiver.initial
end

