-- ==== Sys2Proof/Laws/State.lean ====
section
/-! SUPPORT. One lemma per field per update, true by definition, so that no later proof unfolds a record update. -/

namespace Sys2Proof.Machine

section
variable (s : State) (e : PinEvent) (k : FaultKind) (r : RefusalKind) (op : Opsel) (h : HostResult)

@[simp] theorem emit_trace : (emit e s).trace = s.trace ++ [e] := rfl
@[simp] theorem emit_constructed : (emit e s).constructed = s.constructed := rfl
@[simp] theorem emit_clkPin : (emit e s).clkPin = s.clkPin := rfl
@[simp] theorem emit_dioPin : (emit e s).dioPin = s.dioPin := rfl
@[simp] theorem emit_bright : (emit e s).bright = s.bright := rfl
@[simp] theorem emit_colon : (emit e s).colon = s.colon := rfl
@[simp] theorem emit_phase : (emit e s).phase = s.phase := rfl
@[simp] theorem emit_clkDir : (emit e s).clkDir = s.clkDir := rfl
@[simp] theorem emit_dioDir : (emit e s).dioDir = s.dioDir := rfl
@[simp] theorem emit_clkLvl : (emit e s).clkLvl = s.clkLvl := rfl
@[simp] theorem emit_dioLvl : (emit e s).dioLvl = s.dioLvl := rfl
@[simp] theorem emit_fault : (emit e s).fault = s.fault := rfl
@[simp] theorem emit_refused : (emit e s).refused = s.refused := rfl
@[simp] theorem emit_cfg : (emit e s).cfg = s.cfg := rfl
@[simp] theorem emit_env : (emit e s).env = s.env := rfl
@[simp] theorem emit_prog : (emit e s).prog = s.prog := rfl
@[simp] theorem emit_results : (emit e s).results = s.results := rfl

@[simp] theorem raiseFault_fault : (raiseFault k op s).fault = some ⟨k, op⟩ := rfl
@[simp] theorem raiseFault_refused : (raiseFault k op s).refused = s.refused := rfl
@[simp] theorem raiseFault_constructed : (raiseFault k op s).constructed = s.constructed := rfl
@[simp] theorem raiseFault_clkPin : (raiseFault k op s).clkPin = s.clkPin := rfl
@[simp] theorem raiseFault_dioPin : (raiseFault k op s).dioPin = s.dioPin := rfl
@[simp] theorem raiseFault_bright : (raiseFault k op s).bright = s.bright := rfl
@[simp] theorem raiseFault_colon : (raiseFault k op s).colon = s.colon := rfl
@[simp] theorem raiseFault_phase : (raiseFault k op s).phase = s.phase := rfl
@[simp] theorem raiseFault_trace : (raiseFault k op s).trace = s.trace := rfl
@[simp] theorem raiseFault_cfg : (raiseFault k op s).cfg = s.cfg := rfl
@[simp] theorem raiseFault_prog : (raiseFault k op s).prog = s.prog := rfl
@[simp] theorem raiseFault_results : (raiseFault k op s).results = s.results := rfl

@[simp] theorem refuse_refused : (refuse r op s).refused = some ⟨r, op⟩ := rfl
@[simp] theorem refuse_fault : (refuse r op s).fault = s.fault := rfl
@[simp] theorem refuse_constructed : (refuse r op s).constructed = s.constructed := rfl
@[simp] theorem refuse_clkPin : (refuse r op s).clkPin = s.clkPin := rfl
@[simp] theorem refuse_dioPin : (refuse r op s).dioPin = s.dioPin := rfl
@[simp] theorem refuse_bright : (refuse r op s).bright = s.bright := rfl
@[simp] theorem refuse_colon : (refuse r op s).colon = s.colon := rfl
@[simp] theorem refuse_phase : (refuse r op s).phase = s.phase := rfl
@[simp] theorem refuse_trace : (refuse r op s).trace = s.trace := rfl
@[simp] theorem refuse_cfg : (refuse r op s).cfg = s.cfg := rfl
@[simp] theorem refuse_prog : (refuse r op s).prog = s.prog := rfl
@[simp] theorem refuse_results : (refuse r op s).results = s.results := rfl

@[simp] theorem giveResult_results : (giveResult h s).results = s.results ++ [h] := rfl
@[simp] theorem giveResult_trace : (giveResult h s).trace = s.trace := rfl
@[simp] theorem giveResult_cfg : (giveResult h s).cfg = s.cfg := rfl
@[simp] theorem giveResult_phase : (giveResult h s).phase = s.phase := rfl
end

end Sys2Proof.Machine
end

