-- ==== Sys2Proof/Laws/Ops.lean ====
section
/-! SUPPORT. What each shared operation can do, once: the entry checks, the raising of a stop, and the reads of BRIGHT and
COLON. -/

namespace Sys2Proof.Machine

/-! ## Entry checks -/

theorem unlessStopped_running {s : State} (h : s.running) (r : Result) : unlessStopped s r = r := by
  simp [unlessStopped, h.1, h.2]

theorem unlessStopped_fault {s : State} {f : FaultRecord} (h : s.fault = some f) (r : Result) :
    unlessStopped s r = .fault (.engineFaulted f) := by
  simp [unlessStopped, h]

theorem unlessStopped_refused {s : State} {f : RefusalRecord} (h : s.fault = none) (h' : s.refused = some f)
    (r : Result) : unlessStopped s r = .refused (.engineRefused f) := by
  simp [unlessStopped, h, h']

/-- A next state comes only from a running engine. -/
theorem unlessStopped_next {s t : State} {r : Result} (h : unlessStopped s r = .next t) : s.running ∧ r = .next t := by
  unfold unlessStopped at h
  split at h
  · cases h
  · split at h
    · cases h
    · exact ⟨⟨by assumption, by assumption⟩, h⟩

@[simp] theorem require_true (k : Stop) (c : Course) : require true k c = c := rfl
@[simp] theorem require_false (k : Stop) (c : Course) : require false k c = .error k := rfl

theorem require_ok {b : Bool} {k : Stop} {c : Course} {t : State} (h : require b k c = .ok t) : b = true ∧ c = .ok t := by
  cases b
  · cases h
  · exact ⟨rfl, h⟩

@[simp] theorem settle_ok (op : Opsel) (s t : State) : settle op s (.ok t) = .next t := rfl
@[simp] theorem settle_error (op : Opsel) (s : State) (k : Stop) : settle op s (.error k) = .next (takeStop k op s) := rfl

theorem settle_next {op : Opsel} {s t : State} {c : Course} (h : settle op s c = .next t) :
    c = .ok t ∨ ∃ k, c = .error k ∧ t = takeStop k op s := by
  cases c with
  | ok s' => cases h; exact .inl rfl
  | error k => cases h; exact .inr ⟨k, rfl, rfl⟩

theorem perform_ready {op : Opsel} {s : State} (h : s.ready) (c : Course) : perform op s c = settle op s c := by
  simp [perform, unlessStopped_running h.2, h.1]

theorem perform_unconstructed {op : Opsel} {s : State} (h : s.running) (h' : s.constructed = false) (c : Course) :
    perform op s c = .next (refuse .notConstructed op s) := by
  simp [perform, unlessStopped_running h, h', takeStop]

/-- Everything an operation other than CONSTRUCT can answer as a next state. -/
theorem perform_next {op : Opsel} {s t : State} {c : Course} (h : perform op s c = .next t) :
    s.running ∧ ((s.constructed = true ∧ c = .ok t) ∨ ∃ k, t = takeStop k op s) := by
  obtain ⟨hr, h⟩ := unlessStopped_next h
  refine ⟨hr, ?_⟩
  rcases settle_next h with h | ⟨k, -, h⟩
  · exact .inl (require_ok h)
  · exact .inr ⟨k, h⟩

/-- A stop writes FAULT or REFUSED and nothing else. -/
theorem takeStop_cases (k : Stop) (op : Opsel) (s : State) :
    (∃ f, takeStop k op s = { s with fault := some ⟨f, op⟩ }) ∨
    (∃ r, takeStop k op s = { s with refused := some ⟨r, op⟩ }) := by
  cases k with
  | raise f => exact .inl ⟨f, rfl⟩
  | refuse r => exact .inr ⟨r, rfl⟩

/-! ## Register reads -/

theorem readBright_ok {s s' : State} {v : Byte} (h : readBright s = .ok (v, s')) :
    ∃ e, s' = { s with env := e } ∧ BrightReadsAs s v e := by
  unfold readBright at h
  unfold BrightReadsAs
  split at h
  · cases h; exact ⟨s.env, rfl, .inl ⟨by assumption, rfl⟩⟩
  · cases h; exact ⟨_, rfl, .inr ⟨by assumption, rfl, rfl⟩⟩
  · cases h

theorem readBright_of_reads {s : State} {v : Byte} {e : Env} (h : BrightReadsAs s v e) :
    readBright s = .ok (v, { s with env := e }) := by
  cases s
  rcases h with ⟨h, rfl⟩ | ⟨h, rfl, rfl⟩ <;> (cases h; rfl)

theorem readBright_error {s : State} {k : Stop} (h : readBright s = .error k) :
    s.bright = .noValue ∧ k = .raise .uninitBright := by
  unfold readBright at h
  split at h
  · cases h
  · cases h
  · cases h; exact ⟨by assumption, rfl⟩

theorem readBright_noValue {s : State} (h : s.bright = .noValue) : readBright s = .error (.raise .uninitBright) := by
  simp [readBright, h]

theorem readColon_ok {s s' : State} {c : Bool} (h : readColon s = .ok (c, s')) :
    ∃ e, s' = { s with env := e } ∧ ColonReadsAs s c e := by
  unfold readColon at h
  unfold ColonReadsAs
  split at h
  · cases h; exact ⟨s.env, rfl, .inl ⟨by assumption, rfl⟩⟩
  · cases h; exact ⟨_, rfl, .inr ⟨by assumption, rfl, rfl⟩⟩
  · cases h

theorem readColon_of_reads {s : State} {c : Bool} {e : Env} (h : ColonReadsAs s c e) :
    readColon s = .ok (c, { s with env := e }) := by
  cases s
  rcases h with ⟨h, rfl⟩ | ⟨h, rfl, rfl⟩ <;> (cases h; rfl)

theorem readColon_error {s : State} {k : Stop} (h : readColon s = .error k) :
    s.colon = .noValue ∧ k = .raise .uninitColon := by
  unfold readColon at h
  split at h
  · cases h
  · cases h
  · cases h; exact ⟨by assumption, rfl⟩

theorem readColon_noValue {s : State} (h : s.colon = .noValue) : readColon s = .error (.raise .uninitColon) := by
  simp [readColon, h]

/-- SEG_ROM's read is the table's entry. -/
theorem readSegRom_get? (t : SegTable) (d : Fin 16) : t.entries[d.val]? = some (readSegRom t d) := by
  have h := t.ok
  simp [SegTable.admitted] at h
  rw [List.getElem?_eq_getElem (by omega)]
  rfl

end Sys2Proof.Machine
end

