-- ==== Sys2Proof/Laws/Transport.lean ====
section
/-! SUPPORT. What the bodies of START, STOP and WRITE_BYTE do, each said once as one state update. -/

namespace Sys2Proof.Machine

theorem delay_eq (s : State) : delay s = { s with trace := s.trace ++ [.delay] } := rfl

theorem drive_clk_eq (v : Level) (s : State) :
    drive .clk v s = { s with trace := s.trace ++ [driveEvent s.clkPin v], clkLvl := .driven v } := rfl

theorem drive_dio_eq (v : Level) (s : State) :
    drive .dio v s = { s with
      trace := s.trace ++ (reconfigureEvents s.dioPin s.released ++ [driveEvent s.dioPin v])
      dioDir := .out
      dioLvl := .driven v } := by
  by_cases h : s.dioDir = .out
  · cases s; simp at h; subst h; simp [drive, ensureDioOut, emit, reconfigureEvents]
  · simp [drive, ensureDioOut, emit, reconfigureEvents, h]

theorem releaseDio_eq (s : State) :
    releaseDio s = { s with trace := s.trace ++ [.cfgInPullup s.dioPin], dioDir := .inPullup, dioLvl := .unknown } := rfl

theorem startBody_eq (s : State) :
    startBody s = { s with
      trace := s.trace ++ startEvents s.clkPin s.dioPin s.released
      dioDir := .out
      clkLvl := .driven .high
      dioLvl := .driven .low
      phase := .framed } := by
  simp [startBody, delay_eq, drive_clk_eq, drive_dio_eq, startEvents, reconfigureEvents, driveEvent]

theorem stopBody_eq (s : State) :
    stopBody s = { s with
      trace := s.trace ++ stopEvents s.clkPin s.dioPin s.released
      dioDir := .out
      clkLvl := .driven .high
      dioLvl := .driven .high
      phase := .idle } := by
  simp [stopBody, delay_eq, drive_clk_eq, drive_dio_eq, stopEvents, reconfigureEvents, driveEvent]

theorem bitCell_eq (x : Bool) (s : State) :
    bitCell x s = { s with
      trace := s.trace ++ cellEvents s.clkPin s.dioPin s.released x
      dioDir := .out
      clkLvl := .driven .high
      dioLvl := .driven (Level.ofBit x) } := by
  cases x <;>
    simp [bitCell, delay_eq, drive_clk_eq, drive_dio_eq, cellEvents, reconfigureEvents, driveEvent, Level.ofBit]

theorem ackPhase_eq (s : State) :
    ackPhase s = (s.env.drawAck.1, { s with
      trace := s.trace ++ ackEvents s.clkPin s.dioPin s.env.drawAck.1
      dioDir := .inPullup
      clkLvl := .driven .low
      dioLvl := .unknown
      env := s.env.drawAck.2 }) := by
  simp [ackPhase, ackRelease, ackFinish, sampleDio, releaseDio_eq, emit, delay_eq, drive_clk_eq, ackEvents, driveEvent]

theorem writeByteBody_eq (b : Byte) (s : State) :
    writeByteBody b s = (s.env.drawAck.1, { s with
      trace := s.trace ++ byteEvents s.clkPin s.dioPin s.released b s.env.drawAck.1
      dioDir := .inPullup
      clkLvl := .driven .low
      dioLvl := .unknown
      env := s.env.drawAck.2 }) := by
  simp [writeByteBody, sendBits, bitsLsbFirst, bitCell_eq, ackPhase_eq, byteEvents]

theorem sendByte_eq (b : Byte) (s : State) :
    sendByte b s = { s with
      trace := s.trace ++ byteEvents s.clkPin s.dioPin s.released b s.env.drawAck.1
      dioDir := .inPullup
      clkLvl := .driven .low
      dioLvl := .unknown
      env := s.env.drawAck.2 } := by
  simp [sendByte, writeByteBody_eq]

theorem sendByteForHost_eq (b : Byte) (s : State) :
    sendByteForHost b s = { s with
      trace := s.trace ++ byteEvents s.clkPin s.dioPin s.released b s.env.drawAck.1
      dioDir := .inPullup
      clkLvl := .driven .low
      dioLvl := .unknown
      env := s.env.drawAck.2
      results := s.results ++ [.ack (acknowledged s.env.drawAck.1)] } := by
  simp [sendByteForHost, writeByteBody_eq, giveResult]

end Sys2Proof.Machine
end

