-- ==== Sys2Proof/Laws/Display.lean ====
section
/-! SUPPORT. What a frame and a display write do, each said once as one state update. -/

namespace Sys2Proof.Machine

/-- R83: a DIO drive after a release is preceded by CFG_OUT. -/
@[simp] theorem inPullup_is_released : (PinDir.inPullup != PinDir.out) = true := rfl

theorem drawAcks_length (n : Nat) (e : Env) : (drawAcks n e).1.length = n := by
  induction n generalizing e with
  | zero => rfl
  | succ n ih => simp [drawAcks, ih]

theorem drawAcks_add (m n : Nat) (e : Env) :
    drawAcks (m + n) e =
      ((drawAcks m e).1 ++ (drawAcks n (drawAcks m e).2).1, (drawAcks n (drawAcks m e).2).2) := by
  induction m generalizing e with
  | zero => simp [drawAcks]
  | succ m ih => rw [Nat.add_right_comm]; simp [drawAcks, ih]

/-- Levels beyond the bytes they meet are not looked at. -/
theorem zip_append_of_length {α β : Type} (l : List α) (m m' : List β) (h : m.length = l.length) :
    l.zip (m ++ m') = l.zip m := by
  induction l generalizing m with
  | nil => simp
  | cons a l ih =>
    cases m with
    | nil => simp at h
    | cons b m => simp at h; simp [ih m h]

/-- The bytes of a frame, of which there is at least one. -/
theorem sendBytes_eq (b : Byte) (bs : List Byte) (s : State) :
    (b :: bs).foldl (fun s b => sendByte b s) s = { s with
      trace := s.trace ++
        bytesEvents s.clkPin s.dioPin s.released ((b :: bs).zip (drawAcks (bs.length + 1) s.env).1)
      dioDir := .inPullup
      clkLvl := .driven .low
      dioLvl := .unknown
      env := (drawAcks (bs.length + 1) s.env).2 } := by
  induction bs generalizing b s with
  | nil => simp [sendByte_eq, bytesEvents, drawAcks]
  | cons b' bs ih =>
    rw [List.foldl_cons, ih]
    simp [sendByte_eq, bytesEvents, drawAcks, State.released]

/-- A frame of at least one byte that follows a driven DIO. -/
theorem sendFrame_eq (b : Byte) (bs : List Byte) (s : State) (h : s.dioDir = .out) :
    sendFrame (b :: bs) s = { s with
      trace := s.trace ++ frameEvents s.clkPin s.dioPin ((b :: bs).zip (drawAcks (bs.length + 1) s.env).1)
      clkLvl := .driven .high
      dioLvl := .driven .high
      env := (drawAcks (bs.length + 1) s.env).2
      phase := .idle } := by
  rw [sendFrame, sendBytes_eq, startBody_eq, stopBody_eq]
  simp [frameEvents, h, drawAcks, State.released]

/-- What a transmission that ends in STOP writes, in whatever state it begins: TRACE, the line state, PHASE and the
environment's draws, and nothing else. -/
def Transmits (s t : State) : Prop :=
  ∃ new e, t = { s with
    trace := s.trace ++ new
    dioDir := .out
    clkLvl := .driven .high
    dioLvl := .driven .high
    env := e
    phase := .idle }

theorem Transmits.trans {s t u : State} (h : Transmits s t) (h' : Transmits t u) : Transmits s u := by
  obtain ⟨n, e, rfl⟩ := h
  obtain ⟨n', e', rfl⟩ := h'
  exact ⟨n ++ n', e', by simp⟩

theorem sendFrame_transmits (bytes : List Byte) (s : State) : Transmits s (sendFrame bytes s) := by
  cases bytes with
  | nil => exact ⟨_, s.env, by rw [sendFrame, List.foldl_nil, startBody_eq, stopBody_eq, List.append_assoc]⟩
  | cons b bs =>
    exact ⟨_, _, by rw [sendFrame, sendBytes_eq, startBody_eq, stopBody_eq, List.append_assoc, List.append_assoc]⟩

theorem sendDisplay_transmits (segs : List Byte) (pos : Nat) (ctrl : Byte) (s : State) :
    Transmits s (sendDisplay segs pos ctrl s) :=
  ((sendFrame_transmits _ _).trans (sendFrame_transmits _ _)).trans (sendFrame_transmits _ _)

/-- R134: the three frames. -/
theorem sendDisplay_eq (segs : List Byte) (pos : Nat) (v : Byte) (s : State) (h : s.dioDir = .out) :
    sendDisplay segs pos (controlByte v) s = { s with
      trace := s.trace ++
        framesEvents s.clkPin s.dioPin (displayFrames pos segs v) (drawAcks (3 + segs.length) s.env).1
      clkLvl := .driven .high
      dioLvl := .driven .high
      env := (drawAcks (3 + segs.length) s.env).2
      phase := .idle } := by
  have e : 3 + segs.length = 0 + 1 + ((segs.length + 1) + (0 + 1)) := by omega
  rw [sendDisplay]
  simp only [sendFrame_eq, h, e, drawAcks_add _ _ s.env, drawAcks_add (segs.length + 1), List.length_nil]
  simp [framesEvents, displayFrames, drawAcks_length, dataCommand, addressByte, controlByte, drawAcks,
    zip_append_of_length]

end Sys2Proof.Machine
end

