-- ==== Sys2Proof/Laws/Exec.lean ====
section
/-! SUPPORT. Said once: everything `exec` and `step` can answer as a next state. Whole-machine claims cite these and never
unfold a meaning. -/

namespace Sys2Proof.Machine

/-- What an operation does when it is performed: the conditions under which it is, and the state it leaves. -/
def Performed (i : Instr) (s t : State) : Prop :=
  match i with
  | .construct clk dio => s.constructed = false ∧ clk ≠ dio ∧ t = constructBody clk dio s
  | .bitDelay => s.constructed = true ∧ t = delay s
  | .start => s.constructed = true ∧ s.phase = .idle ∧ t = startBody s
  | .stop => s.constructed = true ∧ s.phase = .framed ∧ t = stopBody s
  | .writeByte b => s.constructed = true ∧ isByte b = true ∧ s.phase = .framed ∧ t = sendByteForHost (toByte b) s
  | .encodeDigit digit => s.constructed = true ∧ isDigit digit = true ∧
      t = giveResult (.seg (encodeDigit s.cfg.segTable (Fin.ofNat 16 digit.toNat))) s
  | .setBrightness level on => s.constructed = true ∧ 0 ≤ level ∧ t = { s with bright := .held (brightByte level on) }
  | .setColon on => s.constructed = true ∧ t = { s with colon := .held on }
  | .setSegments segments length pos => s.constructed = true ∧ isSegmentsLength length = true ∧ isPosition pos = true ∧
      fitsDisplay length pos = true ∧ segmentsOk segments length = true ∧ s.phase = .idle ∧
      ∃ v e, BrightReadsAs s v e ∧
        t = sendDisplay (segmentBytes segments length) pos.toNat (controlByte v) { s with env := e }
  | .showNumberDec num lz length pos => s.constructed = true ∧ isDecimalLength length = true ∧ isPosition pos = true ∧
      fitsDisplay length pos = true ∧ numFits num length = true ∧ s.phase = .idle ∧
      ∃ c e v e', ColonReadsAs s c e ∧ BrightReadsAs { s with env := e } v e' ∧
        t = sendDisplay (applyColon c pos.toNat (decSegments s.cfg.segTable num.toNat lz length.toNat)) pos.toNat
          (controlByte v) { s with env := e' }
  | .clear => s.constructed = true ∧ s.phase = .idle ∧
      ∃ v e, BrightReadsAs s v e ∧ t = sendDisplay [0x00, 0x00, 0x00, 0x00] 0 (controlByte v) { s with env := e }
  | .cmdData => s.constructed = true ∧ s.phase = .framed ∧ t = sendByteForHost dataCommand s
  | .cmdDispCtrl on level => s.constructed = true ∧ s.phase = .framed ∧ t = sendByteForHost (dispCtrlCommand on level) s
  | .cmdAddr pos => s.constructed = true ∧ s.phase = .framed ∧ t = sendByteForHost (addrCommand pos) s
  | .segData b => s.constructed = true ∧ s.phase = .framed ∧ t = sendByteForHost b s

theorem displayWrite_ok {segs : List Byte} {pos : Nat} {s t : State} (h : displayWrite segs pos s = .ok t) :
    ∃ v e, BrightReadsAs s v e ∧ t = sendDisplay segs pos (controlByte v) { s with env := e } := by
  unfold displayWrite at h
  split at h
  · cases h
  · rename_i v s' h'
    obtain ⟨e, rfl, hv⟩ := readBright_ok h'
    exact ⟨v, e, hv, (Except.ok.inj h).symm⟩

theorem displayWrite_of_reads {segs : List Byte} {pos : Nat} {s : State} {v : Byte} {e : Env}
    (h : BrightReadsAs s v e) :
    displayWrite segs pos s = .ok (sendDisplay segs pos (controlByte v) { s with env := e }) := by
  simp [displayWrite, readBright_of_reads h]

theorem displayWrite_noValue {segs : List Byte} {pos : Nat} {s : State} (h : s.bright = .noValue) :
    displayWrite segs pos s = .error (.raise .uninitBright) := by
  simp [displayWrite, readBright_noValue h]

/-- Everything `exec` can answer as a next state: the operation is performed, or a check of its own stops it, and then
nothing but FAULT or REFUSED is written. -/
theorem exec_next {i : Instr} {s t : State} (h : exec i s = .next t) :
    s.running ∧ (Performed i s t ∨ ∃ k, t = takeStop k i.opsel s) := by
  cases i with
  | construct clk dio =>
    obtain ⟨hr, h⟩ := unlessStopped_next h
    refine ⟨hr, ?_⟩
    rcases settle_next h with h | ⟨k, -, h⟩
    · obtain ⟨h1, h⟩ := require_ok h
      obtain ⟨h2, h⟩ := require_ok h
      exact .inl ⟨by simpa using h1, by simpa using h2, (Except.ok.inj h).symm⟩
    · exact .inr ⟨k, h⟩
  | bitDelay =>
    obtain ⟨hr, ⟨h0, h⟩ | h⟩ := perform_next h
    · exact ⟨hr, .inl ⟨h0, (Except.ok.inj h).symm⟩⟩
    · exact ⟨hr, .inr h⟩
  | start =>
    obtain ⟨hr, ⟨h0, h⟩ | h⟩ := perform_next h
    · obtain ⟨h1, h⟩ := require_ok h
      exact ⟨hr, .inl ⟨h0, by simpa using h1, (Except.ok.inj h).symm⟩⟩
    · exact ⟨hr, .inr h⟩
  | stop =>
    obtain ⟨hr, ⟨h0, h⟩ | h⟩ := perform_next h
    · obtain ⟨h1, h⟩ := require_ok h
      exact ⟨hr, .inl ⟨h0, by simpa using h1, (Except.ok.inj h).symm⟩⟩
    · exact ⟨hr, .inr h⟩
  | writeByte b =>
    obtain ⟨hr, ⟨h0, h⟩ | h⟩ := perform_next h
    · obtain ⟨h1, h⟩ := require_ok h
      obtain ⟨h2, h⟩ := require_ok h
      exact ⟨hr, .inl ⟨h0, h1, by simpa using h2, (Except.ok.inj h).symm⟩⟩
    · exact ⟨hr, .inr h⟩
  | encodeDigit digit =>
    obtain ⟨hr, ⟨h0, h⟩ | h⟩ := perform_next h
    · obtain ⟨h1, h⟩ := require_ok h
      exact ⟨hr, .inl ⟨h0, h1, (Except.ok.inj h).symm⟩⟩
    · exact ⟨hr, .inr h⟩
  | setBrightness level on =>
    obtain ⟨hr, ⟨h0, h⟩ | h⟩ := perform_next h
    · obtain ⟨h1, h⟩ := require_ok h
      exact ⟨hr, .inl ⟨h0, by simpa using h1, (Except.ok.inj h).symm⟩⟩
    · exact ⟨hr, .inr h⟩
  | setColon on =>
    obtain ⟨hr, ⟨h0, h⟩ | h⟩ := perform_next h
    · exact ⟨hr, .inl ⟨h0, (Except.ok.inj h).symm⟩⟩
    · exact ⟨hr, .inr h⟩
  | setSegments segments length pos =>
    obtain ⟨hr, ⟨h0, h⟩ | h⟩ := perform_next h
    · obtain ⟨h1, h⟩ := require_ok h
      obtain ⟨h2, h⟩ := require_ok h
      obtain ⟨h3, h⟩ := require_ok h
      obtain ⟨h4, h⟩ := require_ok h
      obtain ⟨h5, h⟩ := require_ok h
      exact ⟨hr, .inl ⟨h0, h1, h2, h3, h4, by simpa using h5, displayWrite_ok h⟩⟩
    · exact ⟨hr, .inr h⟩
  | showNumberDec num lz length pos =>
    obtain ⟨hr, ⟨h0, h⟩ | h⟩ := perform_next h
    · obtain ⟨h1, h⟩ := require_ok h
      obtain ⟨h2, h⟩ := require_ok h
      obtain ⟨h3, h⟩ := require_ok h
      obtain ⟨h4, h⟩ := require_ok h
      obtain ⟨h5, h⟩ := require_ok h
      split at h
      · cases h
      · rename_i c s' hc
        obtain ⟨e, rfl, hcr⟩ := readColon_ok hc
        obtain ⟨v, e', hv, rfl⟩ := displayWrite_ok h
        exact ⟨hr, .inl ⟨h0, h1, h2, h3, h4, by simpa using h5, c, e, v, e', hcr, hv, rfl⟩⟩
    · exact ⟨hr, .inr h⟩
  | clear =>
    obtain ⟨hr, ⟨h0, h⟩ | h⟩ := perform_next h
    · obtain ⟨h1, h⟩ := require_ok h
      exact ⟨hr, .inl ⟨h0, by simpa using h1, displayWrite_ok h⟩⟩
    · exact ⟨hr, .inr h⟩
  | cmdData | cmdDispCtrl on level | cmdAddr pos | segData b =>
    obtain ⟨hr, ⟨h0, h⟩ | h⟩ := perform_next h
    · obtain ⟨h1, h⟩ := require_ok h
      exact ⟨hr, .inl ⟨h0, by simpa using h1, (Except.ok.inj h).symm⟩⟩
    · exact ⟨hr, .inr h⟩

/-- What every operation but CONSTRUCT leaves as it was when it is performed: the pins and CLK's direction, FAULT,
REFUSED, the configuration, the host's list, and the events and results already there. -/
structure Untouched (s t : State) : Prop where
  constructed : t.constructed = s.constructed
  clkPin : t.clkPin = s.clkPin
  dioPin : t.dioPin = s.dioPin
  clkDir : t.clkDir = s.clkDir
  fault : t.fault = s.fault
  refused : t.refused = s.refused
  cfg : t.cfg = s.cfg
  prog : t.prog = s.prog
  trace : s.trace <+: t.trace
  results : s.results <+: t.results

theorem sendDisplay_untouched (segs : List Byte) (pos : Nat) (ctrl : Byte) (s : State) (e : Env) :
    Untouched s (sendDisplay segs pos ctrl { s with env := e }) := by
  obtain ⟨n, e', h⟩ := sendDisplay_transmits segs pos ctrl { s with env := e }
  rw [h]; constructor <;> simp

theorem sendByteForHost_untouched (b : Byte) (s : State) : Untouched s (sendByteForHost b s) := by
  rw [sendByteForHost_eq]; constructor <;> simp

theorem performed_untouched {i : Instr} {s t : State} (hi : ∀ clk dio, i ≠ .construct clk dio) (h : Performed i s t) :
    Untouched s t := by
  cases i with
  | construct clk dio => exact absurd rfl (hi clk dio)
  | bitDelay => rw [h.2, delay_eq]; constructor <;> simp
  | start => rw [h.2.2, startBody_eq]; constructor <;> simp
  | stop => rw [h.2.2, stopBody_eq]; constructor <;> simp
  | writeByte b => rw [h.2.2.2]; exact sendByteForHost_untouched _ _
  | encodeDigit digit => rw [h.2.2]; constructor <;> simp [giveResult]
  | setBrightness level on => rw [h.2.2]; constructor <;> simp
  | setColon on => rw [h.2]; constructor <;> simp
  | setSegments segments length pos =>
    obtain ⟨-, -, -, -, -, -, v, e, -, rfl⟩ := h
    exact sendDisplay_untouched _ _ _ _ _
  | showNumberDec num lz length pos =>
    obtain ⟨-, -, -, -, -, -, c, e, v, e', -, -, rfl⟩ := h
    exact sendDisplay_untouched _ _ _ _ _
  | clear =>
    obtain ⟨-, -, v, e, -, rfl⟩ := h
    exact sendDisplay_untouched _ _ _ _ _
  | cmdData | cmdDispCtrl on level | cmdAddr pos | segData b => rw [h.2.2]; exact sendByteForHost_untouched _ _

/-- A performed operation leaves the engine running. -/
theorem performed_running {i : Instr} {s t : State} (hr : s.running) (h : Performed i s t) : t.running := by
  by_cases hi : ∀ clk dio, i ≠ .construct clk dio
  · have hu := performed_untouched hi h
    exact ⟨hu.fault.trans hr.1, hu.refused.trans hr.2⟩
  · obtain ⟨clk, dio, rfl⟩ : ∃ clk dio, i = .construct clk dio := by simpa using hi
    obtain ⟨-, -, rfl⟩ := h
    exact ⟨rfl, rfl⟩

/-- Everything `step` can answer as a next state: it takes the next slot off the host's list and runs what it decodes
to, or refuses its reserved selector. -/
theorem step_next {s t : State} (h : step s = .next t) :
    s.running ∧ ∃ slot rest, s.prog = slot :: rest ∧
      ((∃ i, decode slot = .ok i ∧ exec i { s with prog := rest } = .next t) ∨
        ∃ op, decode slot = .error (.reservedSelector op) ∧ t = refuse .opsel op { s with prog := rest }) := by
  obtain ⟨hr, h⟩ := unlessStopped_next h
  refine ⟨hr, ?_⟩
  split at h
  · cases h
  · rename_i slot rest hp
    refine ⟨slot, rest, hp, ?_⟩
    split at h
    · rename_i i hd; exact .inl ⟨i, hd, h⟩
    · rename_i op hd; cases h; exact .inr ⟨op, hd, rfl⟩
    · cases h
    · cases h

/-- An invariant that does not look at the host's list, and that stops and performed operations keep, is kept by every
step. -/
theorem step_keeps {Inv : State → Prop} (hprog : ∀ s p, Inv s → Inv { s with prog := p })
    (hstop : ∀ s k op, s.running → Inv s → Inv (takeStop k op s))
    (hdo : ∀ i s t, s.running → Inv s → Performed i s t → Inv t) {s t : State} (h : step s = .next t) (hi : Inv s) :
    Inv t := by
  obtain ⟨hr, slot, rest, -, ⟨i, -, h⟩ | ⟨op, -, rfl⟩⟩ := step_next h
  · rcases (exec_next h).2 with h | ⟨k, rfl⟩
    · exact hdo i { s with prog := rest } t hr (hprog s rest hi) h
    · exact hstop { s with prog := rest } k _ hr (hprog s rest hi)
  · exact hstop { s with prog := rest } (.refuse .opsel) op hr (hprog s rest hi)

end Sys2Proof.Machine
end

