-- ==== Sys2Proof/Laws/Memory.lean ====
section
/-! SUPPORT. The laws of byte memory: a read after a write, and that every operation keeps the canonical form; so the
reference receiver's display memory always has it. -/

namespace Sys2Proof.Machine

theorem Memory.read_write_same (a : Nat) (v : Byte) (m : Memory) : (m.write a v).read a = some v := by
  induction m with
  | nil => simp [write, read]
  | cons c m ih =>
    obtain ⟨a', b⟩ := c
    simp only [write]
    split
    · simp [read]
    · split
      · simp [read]
      · rename_i h; simp [read, h, ih]

theorem Memory.read_write_other {a a' : Nat} (h : a' ≠ a) (v : Byte) (m : Memory) :
    (m.write a v).read a' = m.read a' := by
  induction m with
  | nil => simp [write, read, h]
  | cons c m ih =>
    obtain ⟨x, b⟩ := c
    simp only [write]
    split
    · simp [read, h]
    · split
      · rename_i _ hx; subst hx; simp [read, h]
      · simp only [read, ih]

/-- Every listed address is above a bound. -/
def Memory.above (a : Nat) (m : Memory) : Prop := ∀ c ∈ m, a < c.1

theorem Memory.wf_cons {a : Nat} {b : Byte} {m : Memory} :
    Memory.wf ((a, b) :: m) = true ↔ Memory.above a m ∧ m.wf = true := by
  induction m generalizing a b with
  | nil => simp [wf, above]
  | cons c m ih =>
    obtain ⟨a', b'⟩ := c
    simp only [wf, Bool.and_eq_true, decide_eq_true_eq]
    constructor
    · rintro ⟨h, hm⟩
      refine ⟨?_, hm⟩
      intro c hc
      rcases List.mem_cons.mp hc with rfl | hc
      · exact h
      · exact Nat.lt_trans h ((ih.mp hm).1 c hc)
    · rintro ⟨h, hm⟩
      exact ⟨h (a', b') (by simp), hm⟩

theorem Memory.write_above {x a : Nat} {v : Byte} {m : Memory} (h : m.above x) (ha : x < a) : (m.write a v).above x := by
  induction m with
  | nil => simpa [write, above] using ha
  | cons c m ih =>
    obtain ⟨a', b⟩ := c
    have h1 : x < a' := h (a', b) (by simp)
    have h2 : Memory.above x m := fun c hc => h c (by simp [hc])
    simp only [write]
    split
    · intro c hc
      simp only [List.mem_cons] at hc
      rcases hc with rfl | rfl | hc
      · exact ha
      · exact h1
      · exact h2 c hc
    · split
      · intro c hc
        simp only [List.mem_cons] at hc
        rcases hc with rfl | hc
        · exact ha
        · exact h2 c hc
      · intro c hc
        simp only [List.mem_cons] at hc
        rcases hc with rfl | hc
        · exact h1
        · exact ih h2 c hc

/-- A write keeps the canonical form. -/
theorem Memory.write_wf {a : Nat} {v : Byte} {m : Memory} (h : m.wf = true) : (m.write a v).wf = true := by
  induction m with
  | nil => rfl
  | cons c m ih =>
    obtain ⟨a', b⟩ := c
    obtain ⟨h1, h2⟩ := wf_cons.mp h
    simp only [write]
    split
    · rename_i hlt
      refine wf_cons.mpr ⟨?_, h⟩
      intro c hc
      rcases List.mem_cons.mp hc with rfl | hc
      · exact hlt
      · exact Nat.lt_trans hlt (h1 c hc)
    · split
      · rename_i _ he; subst he; exact wf_cons.mpr ⟨h1, h2⟩
      · exact wf_cons.mpr ⟨write_above h1 (by omega), ih h2⟩

theorem Memory.writeRun_wf {a : Nat} {vs : List Byte} {m : Memory} (h : m.wf = true) :
    (Memory.writeRun a vs m).wf = true := by
  induction vs generalizing a m with
  | nil => exact h
  | cons v vs ih => exact ih (write_wf h)

theorem Memory.read_writeRun_below {a p : Nat} (h : p < a) (vs : List Byte) (m : Memory) :
    (Memory.writeRun a vs m).read p = m.read p := by
  induction vs generalizing a m with
  | nil => rfl
  | cons v vs ih => rw [writeRun, ih (by omega), read_write_other (by omega)]

/-- A run writes its bytes to its addresses and leaves every other address alone. -/
theorem Memory.read_writeRun (a p : Nat) (vs : List Byte) (m : Memory) :
    (Memory.writeRun a vs m).read p = if a ≤ p ∧ p < a + vs.length then vs[p - a]? else m.read p := by
  induction vs generalizing a m with
  | nil => rw [if_neg (by simp)]; rfl
  | cons v vs ih =>
    rw [writeRun, ih]
    simp only [List.length_cons]
    by_cases h1 : p = a
    · subst h1
      rw [if_neg (by omega), if_pos (by omega), read_write_same]
      simp
    · rw [read_write_other h1]
      by_cases h2 : a + 1 ≤ p ∧ p < a + 1 + vs.length
      · rw [if_pos h2, if_pos (by omega)]
        obtain ⟨k, rfl⟩ : ∃ k, p = a + 1 + k := ⟨p - (a + 1), by omega⟩
        rw [show a + 1 + k - (a + 1) = k by omega, show a + 1 + k - a = k + 1 by omega, List.getElem?_cons_succ]
      · rw [if_neg h2, if_neg (by omega)]

/-- A frame keeps the form of the display memory. -/
theorem Receiver.onFrame_wf {r : Receiver} (f : List Byte) (h : r.disp.wf = true) : (r.onFrame f).disp.wf = true := by
  unfold Receiver.onFrame
  split
  · rfl
  · split
    · split
      · exact h
      · rfl
    · split
      · exact Memory.writeRun_wf h
      · rfl
    · split
      · exact h
      · rfl
    · rfl

/-- The display memory of the reference receiver is in canonical form, whatever the trace. -/
theorem receiver_disp_wf (s : State) : s.receiver.disp.wf = true := by
  unfold State.receiver Receiver.ofFrames
  have : ∀ (fs : List (List Byte)) (r : Receiver), r.disp.wf = true → (fs.foldl Receiver.onFrame r).disp.wf = true := by
    intro fs
    induction fs with
    | nil => exact fun r h => h
    | cons f fs ih => exact fun r h => ih _ (Receiver.onFrame_wf f h)
  exact this _ _ rfl

end Sys2Proof.Machine
end

