-- ==== Sys2Proof/Laws/PerInstr.lean ====
section
/-! SUPPORT. Facts proved for every instruction, one lemma per constructor. -/

/-- R60, R61, R73: the selector an instruction reports a fault or a refusal under is the one its encoding carries, a
selector of R61's table; a wire byte, whose encoding carries none, reports under WRITE_BYTE's. -/
def Sys2Proof.Laws.Selector.Statement (i : Sys2Proof.Instr) : Prop :=
  match Sys2Proof.encode i with
  | .op o => i.opsel = o.opsel ∧ (Sys2Proof.opcodeOf? o.opsel).isSome = true
  | .wire _ _ => i.opsel = Sys2Proof.HostOpcode.writeByte.opsel

namespace Sys2Proof.Laws.Selector

theorem construct (clk dio : PinId) : Statement (.construct clk dio) := ⟨rfl, rfl⟩
theorem bitDelay : Statement .bitDelay := ⟨rfl, rfl⟩
theorem start : Statement .start := ⟨rfl, rfl⟩
theorem stop : Statement .stop := ⟨rfl, rfl⟩
theorem writeByte (b : Int) : Statement (.writeByte b) := ⟨rfl, rfl⟩
theorem encodeDigit (digit : Int) : Statement (.encodeDigit digit) := ⟨rfl, rfl⟩
theorem setBrightness (level : Int) (on : Bool) : Statement (.setBrightness level on) := ⟨rfl, rfl⟩
theorem setColon (on : Bool) : Statement (.setColon on) := ⟨rfl, rfl⟩
theorem setSegments (segments : List Int) (length pos : Int) : Statement (.setSegments segments length pos) := ⟨rfl, rfl⟩
theorem showNumberDec (num : Int) (lz : Bool) (length pos : Int) : Statement (.showNumberDec num lz length pos) :=
  ⟨rfl, rfl⟩
theorem clear : Statement .clear := ⟨rfl, rfl⟩
theorem cmdData : Statement .cmdData := rfl
theorem cmdDispCtrl (on : Bool) (level : BitVec 3) : Statement (.cmdDispCtrl on level) := rfl
theorem cmdAddr (pos : BitVec 2) : Statement (.cmdAddr pos) := rfl
theorem segData (b : Byte) : Statement (.segData b) := rfl

end Sys2Proof.Laws.Selector
end

