-- ==== Sys2Proof/Laws/Wire.lean ====
section
/-! SUPPORT. What the event sequences of the rules show on the wire, one lemma per sequence. -/

namespace Sys2Proof.Machine

theorem wireView_append (c d : PinId) (a b : List PinEvent) :
    wireView c d (a ++ b) = b.foldl (WireView.see c d) (wireView c d a) := by
  simp [wireView]

theorem byteOfBits_bitsLsbFirst (b : Byte) : byteOfBits (bitsLsbFirst b) = b := by
  revert b; decide

/-- The acknowledgement after eight bits completes the byte. -/
theorem see_ackEvents {c d : PinId} {w : WireView} {v : Level} {sent : List Byte} (hs : w.current = some sent)
    (hb : w.bits.length = 8) :
    (ackEvents c d v).foldl (WireView.see c d) w =
      { w with clk := .driven .low, dio := .unknown, current := some (sent ++ [byteOfBits w.bits]), bits := [] } := by
  simp [ackEvents, WireView.see, WireView.seeClk, hs, hb]

section
variable {c d : PinId} (hcd : c ≠ d)
include hcd

/-- START on an idle bus, or on the lines CONSTRUCT left, opens a frame. -/
theorem see_startEvents {w : WireView}
    (h : (w.clk = .unknown ∧ w.dio = .unknown) ∨ (w.clk = .driven .high ∧ w.dio = .driven .high)) :
    (startEvents c d false).foldl (WireView.see c d) w =
      { w with clk := .driven .high, dio := .driven .low, current := some [], bits := [] } := by
  rcases h with ⟨h1, h2⟩ | ⟨h1, h2⟩ <;>
    simp [startEvents, reconfigureEvents, WireView.see, WireView.seeClk, WireView.seeDio, hcd.symm, h1, h2]

/-- STOP closes the open frame. -/
theorem see_stopEvents {w : WireView} {released : Bool} {sent : List Byte} (hs : w.current = some sent) (hb : w.bits = [])
    (h : (w.clk = .driven .high ∧ w.dio = .driven .low) ∨ (w.clk = .driven .low ∧ w.dio = .unknown)) :
    (stopEvents c d released).foldl (WireView.see c d) w =
      { clk := .driven .high, dio := .driven .high, current := none, bits := [], closed := w.closed ++ [sent] } := by
  rcases h with ⟨h1, h2⟩ | ⟨h1, h2⟩ <;> cases released <;>
    simp [stopEvents, reconfigureEvents, WireView.see, WireView.seeClk, WireView.seeDio, hcd.symm, h1, h2, hs, hb]

/-- A bit cell in a frame adds its bit. -/
theorem see_cellEvents {w : WireView} {released x : Bool} {sent : List Byte} (hs : w.current = some sent)
    (hb : w.bits.length < 8) :
    (cellEvents c d released x).foldl (WireView.see c d) w =
      { w with clk := .driven .high, dio := .driven (Level.ofBit x), bits := w.bits ++ [x] } := by
  have hb' : w.bits.length ≠ 8 := by omega
  cases released <;> cases x <;>
    simp [cellEvents, reconfigureEvents, WireView.see, WireView.seeClk, WireView.seeDio, hcd.symm, hs, hb', Level.ofBit]

/-- A byte in a frame is added to it. -/
theorem see_byteEvents {w : WireView} {released : Bool} {b : Byte} {v : Level} {sent : List Byte}
    (hs : w.current = some sent) (hb : w.bits = []) :
    (byteEvents c d released b v).foldl (WireView.see c d) w =
      { w with clk := .driven .low, dio := .unknown, current := some (sent ++ [b]), bits := [] } := by
  obtain ⟨wclk, wdio, cur, bits, closed⟩ := w
  cases hs
  cases hb
  have cell : ∀ clk dio bits r x, bits.length < 8 →
      (cellEvents c d r x).foldl (WireView.see c d) ⟨clk, dio, some sent, bits, closed⟩ =
        ⟨.driven .high, .driven (Level.ofBit x), some sent, bits ++ [x], closed⟩ :=
    fun _ _ _ _ _ h => see_cellEvents hcd rfl h
  have byte := byteOfBits_bitsLsbFirst b
  simp only [bitsLsbFirst] at byte
  simp only [byteEvents, List.foldl_append]
  simp (disch := simp) only [cell]
  rw [see_ackEvents rfl rfl]
  simp only [List.nil_append, List.cons_append, byte]

/-- So are several. -/
theorem see_bytesEvents {w : WireView} {released : Bool} {bytes : List (Byte × Level)} {sent : List Byte}
    (hs : w.current = some sent) (hb : w.bits = []) (hne : bytes ≠ []) :
    (bytesEvents c d released bytes).foldl (WireView.see c d) w =
      { w with clk := .driven .low, dio := .unknown, current := some (sent ++ bytes.map Prod.fst), bits := [] } := by
  induction bytes generalizing w released sent with
  | nil => exact absurd rfl hne
  | cons bv rest ih =>
    obtain ⟨b, v⟩ := bv
    rw [bytesEvents, List.foldl_append, see_byteEvents hcd hs hb]
    cases rest with
    | nil => simp [bytesEvents]
    | cons bv' rest =>
      rw [ih (sent := sent ++ [b]) rfl rfl (by simp)]
      simp

/-- A frame of at least one byte, from an idle bus or from the lines CONSTRUCT left, is one frame on the wire. -/
theorem see_frameEvents {w : WireView} {bytes : List (Byte × Level)}
    (h : (w.clk = .unknown ∧ w.dio = .unknown) ∨ (w.clk = .driven .high ∧ w.dio = .driven .high)) (hne : bytes ≠ []) :
    (frameEvents c d bytes).foldl (WireView.see c d) w =
      { clk := .driven .high, dio := .driven .high, current := none, bits := [],
        closed := w.closed ++ [bytes.map Prod.fst] } := by
  rw [frameEvents, List.foldl_append, List.foldl_append, see_startEvents hcd h,
    see_bytesEvents hcd (sent := []) rfl rfl hne, see_stopEvents hcd (sent := bytes.map Prod.fst) (by simp) rfl (by simp)]

/-- The frames of a display write are those frames on the wire. -/
theorem see_framesEvents {w : WireView} {frames : List (List Byte)} {levels : List Level}
    (h : (w.clk = .unknown ∧ w.dio = .unknown) ∨ (w.clk = .driven .high ∧ w.dio = .driven .high))
    (hn : frames ≠ []) (hne : ∀ f ∈ frames, f ≠ []) (hl : levels.length = (frames.map List.length).sum) :
    (framesEvents c d frames levels).foldl (WireView.see c d) w =
      { clk := .driven .high, dio := .driven .high, current := none, bits := [], closed := w.closed ++ frames } := by
  induction frames generalizing w levels with
  | nil => exact absurd rfl hn
  | cons f rest ih =>
    simp only [List.map_cons, List.sum_cons] at hl
    have hf : f.length ≤ levels.length := by omega
    have hfne : f ≠ [] := hne f (by simp)
    have hz : f.zip levels ≠ [] := by
      cases f with
      | nil => exact absurd rfl hfne
      | cons b f =>
        cases levels with
        | nil => simp at hf
        | cons v levels => simp
    rw [framesEvents, List.foldl_append, see_frameEvents hcd h hz, List.map_fst_zip hf]
    cases rest with
    | nil => simp [framesEvents]
    | cons f' rest =>
      rw [ih (.inr ⟨rfl, rfl⟩) (by simp) (fun g hg => hne g (by simp [List.mem_cons.mp hg]))
        (by simp only [List.length_drop]; omega)]
      simp

end

end Sys2Proof.Machine
end

