-- ==== Sys2Proof/Tests/Slice0.lean ====
section
/-! SUPPORT. Small tests, each of one step, with the expected result taken from spec/95_test_vectors.md or worked out from
the rule named; then a named witness for the hypotheses of every obligation that has some. -/

namespace Sys2Proof.Tests

open Sys2Proof Sys2Proof.Machine

/-! ## Small states -/

/-- A constructed instance with BRIGHT = 0x0F and COLON = false, the bus as CONSTRUCT left it. -/
def lit : State := { State.reset with bright := .held 0x0F, colon := .held false }

/-- The same with COLON = true. -/
def lit2 : State := { lit with colon := .held true }

/-- The same with a frame open, right after START, and two scripted samples. -/
def opened : State := startBody { lit with env := ⟨[.high, .low], [], [], 0⟩ }

/-- An instance whose BRIGHT and COLON are drawn afresh at each read. -/
def drawn : State := { State.reset with bright := .drawn, colon := .drawn, env := ⟨[], [0x0A, 0x5C], [true], 0⟩ }

/-- The frames on the wire after a next state. -/
def framesAfter : Result → Option (List (List Byte))
  | .next t => some t.frames
  | _ => none

/-- The events a next state adds. -/
def newEvents (s : State) : Result → Option (List PinEvent)
  | .next t => some (t.trace.drop s.trace.length)
  | _ => none

/-- The results a next state holds. -/
def resultsAfter : Result → Option (List HostResult)
  | .next t => some t.results
  | _ => none

/-- What the open frame holds on the wire after a next state. -/
def openFrame : Result → Option (List Byte)
  | .next t => t.wire.current
  | _ => none

/-- What the reference receiver holds after a next state. -/
def receiverAfter : Result → Option Receiver
  | .next t => some t.receiver
  | _ => none

/-- The fault and the refusal a next state records. -/
def stopsAfter : Result → Option (Option FaultRecord × Option RefusalRecord)
  | .next t => some (t.fault, t.refused)
  | _ => none

/-! ## Decoding: words written out from R61 and from R66, R67, R68, R70 -/

theorem test_decode_construct : decode (.op ⟨0b00000000, [.pin ⟨2⟩, .pin ⟨3⟩]⟩) = .ok (.construct ⟨2⟩ ⟨3⟩) := rfl
theorem test_decode_bit_delay : decode (.op ⟨0b00000001, []⟩) = .ok .bitDelay := rfl
theorem test_decode_start : decode (.op ⟨0b00000010, []⟩) = .ok .start := rfl
theorem test_decode_stop : decode (.op ⟨0b00000011, []⟩) = .ok .stop := rfl
theorem test_decode_write_byte : decode (.op ⟨0b00000100, [.int 0xC3]⟩) = .ok (.writeByte 0xC3) := rfl
theorem test_decode_encode_digit : decode (.op ⟨0b00010000, [.int 15]⟩) = .ok (.encodeDigit 15) := rfl
theorem test_decode_set_brightness : decode (.op ⟨0b00100000, [.int 3, .bool false]⟩) = .ok (.setBrightness 3 false) := rfl
theorem test_decode_set_brightness_omitted_on : decode (.op ⟨0b00100000, [.int 7]⟩) = .ok (.setBrightness 7 true) := rfl
theorem test_decode_set_colon : decode (.op ⟨0b00100001, [.bool true]⟩) = .ok (.setColon true) := rfl
theorem test_decode_set_segments :
    decode (.op ⟨0b00100010, [.ints [0x3F, 0x06], .int 2, .int 1]⟩) = .ok (.setSegments [0x3F, 0x06] 2 1) := rfl
theorem test_decode_show_number_dec :
    decode (.op ⟨0b00100011, [.int 42, .bool false, .int 3, .int 1]⟩) = .ok (.showNumberDec 42 false 3 1) := rfl
theorem test_decode_clear : decode (.op ⟨0b00100100, []⟩) = .ok .clear := rfl
theorem test_decode_cmd_data : decode (.wire .command 0b01000000) = .ok .cmdData := rfl
theorem test_decode_cmd_dispctrl_on : decode (.wire .command 0b10001011) = .ok (.cmdDispCtrl true 3) := rfl
theorem test_decode_cmd_dispctrl_off : decode (.wire .command 0b10000100) = .ok (.cmdDispCtrl false 4) := rfl
theorem test_decode_cmd_addr : decode (.wire .command 0b11000001) = .ok (.cmdAddr 1) := rfl
theorem test_decode_seg_data : decode (.wire .segment 0b10000001) = .ok (.segData 0x81) := rfl

theorem test_decode_rejects_reserved : decode (.op ⟨0x05, []⟩) = .error (.reservedSelector 0x05) := rfl
theorem test_decode_rejects_illtyped : decode (.op ⟨0x21, [.int 1]⟩) = .error (.illTypedOperands 0x21) := rfl
theorem test_decode_rejects_noncommand : decode (.wire .command 0x41) = .error (.notACommand 0x41) := rfl
theorem test_decode_rejects_address_4 : decode (.wire .command 0xC4) = .error (.notACommand 0xC4) := rfl

/-! ## WellFormed refuses an ill-formed term of each check -/

theorem test_ill_formed_same_pin : (Instr.construct ⟨4⟩ ⟨4⟩).wellFormed = false := by decide
theorem test_ill_formed_byte :
    (Instr.writeByte 256).wellFormed = false ∧ (Instr.writeByte (-1)).wellFormed = false := by decide
theorem test_ill_formed_digit :
    (Instr.encodeDigit 16).wellFormed = false ∧ (Instr.encodeDigit (-1)).wellFormed = false := by decide
theorem test_ill_formed_level : (Instr.setBrightness (-1) true).wellFormed = false := by decide
theorem test_ill_formed_segments_length :
    (Instr.setSegments [0, 0, 0, 0, 0] 5 0).wellFormed = false ∧ (Instr.setSegments [] (-1) 0).wellFormed = false := by
  decide
theorem test_ill_formed_segments_place :
    (Instr.setSegments [0] 1 4).wellFormed = false ∧ (Instr.setSegments [0] 1 (-1)).wellFormed = false ∧
    (Instr.setSegments [0, 0] 2 3).wellFormed = false := by decide
theorem test_ill_formed_segments_elements :
    (Instr.setSegments [0x3F] 2 0).wellFormed = false ∧ (Instr.setSegments [0x100] 1 0).wellFormed = false := by decide
theorem test_ill_formed_number_length :
    (Instr.showNumberDec 5 true 0 0).wellFormed = false ∧ (Instr.showNumberDec 5 true 5 0).wellFormed = false := by decide
theorem test_ill_formed_number_place :
    (Instr.showNumberDec 5 true 1 4).wellFormed = false ∧ (Instr.showNumberDec 5 true 1 (-1)).wellFormed = false ∧
    (Instr.showNumberDec 5 true 2 3).wellFormed = false := by decide
theorem test_ill_formed_number :
    (Instr.showNumberDec 10 false 1 0).wellFormed = false ∧ (Instr.showNumberDec (-1) true 4 0).wellFormed = false := by
  decide
theorem test_well_formed_boundaries :
    (Instr.writeByte 255).wellFormed = true ∧ (Instr.encodeDigit 15).wellFormed = true ∧
    (Instr.setSegments [] 0 3).wellFormed = true ∧ (Instr.showNumberDec 9999 false 4 0).wellFormed = true ∧
    (Instr.setSegments [1, 0x100] 1 3).wellFormed = true := by decide

/-! ## Construction (section 2.4) -/

theorem test_Z1 : exec (.construct ⟨2⟩ ⟨3⟩) (State.unconstructed Config.default) = .next State.reset := rfl
theorem test_Z2 :
    stopsAfter (exec (.construct ⟨4⟩ ⟨4⟩) (State.unconstructed Config.default)) =
      some (none, some ⟨.samePin, 0x00⟩) := by decide
theorem test_Z4 :
    stopsAfter (exec .start (State.unconstructed Config.default)) = some (none, some ⟨.notConstructed, 0x02⟩) := by decide

/-! ## Transport (section 2.1) -/

theorem test_T14 : newEvents opened (exec .bitDelay opened) = some [.delay] := by decide
theorem test_T1 :
    newEvents lit (exec .start lit) = some [.setHigh ⟨3⟩, .setHigh ⟨2⟩, .delay, .setLow ⟨3⟩, .delay] := by decide
theorem test_T11 : stopsAfter (exec .start opened) = some (some ⟨.framingStart, 0x02⟩, none) := by decide
theorem test_T2 :
    newEvents opened (exec .stop opened) =
      some [.setLow ⟨3⟩, .setLow ⟨2⟩, .delay, .setHigh ⟨2⟩, .delay, .setHigh ⟨3⟩, .delay] := by decide
theorem test_T10 : stopsAfter (exec .stop lit) = some (some ⟨.framingIdle, 0x03⟩, none) := by decide
/-- R88's five events for a 0 bit, on the pins 2 and 3. -/
def zeroCell : List PinEvent := [.setLow ⟨2⟩, .setLow ⟨3⟩, .delay, .setHigh ⟨2⟩, .delay]

/-- R88's five events for a 1 bit. -/
def oneCell : List PinEvent := [.setLow ⟨2⟩, .setHigh ⟨3⟩, .delay, .setHigh ⟨2⟩, .delay]

/-- R89's eight events with a high sample. -/
def nackCell : List PinEvent :=
  [.setLow ⟨2⟩, .cfgInPullup ⟨3⟩, .delay, .setHigh ⟨2⟩, .delay, .read ⟨3⟩ .high, .setLow ⟨2⟩, .delay]

theorem test_T4 :
    newEvents opened (exec (.writeByte 0x40) opened) =
      some [zeroCell, zeroCell, zeroCell, zeroCell, zeroCell, zeroCell, oneCell, zeroCell, nackCell].flatten := by
  decide +kernel
/-- W9: the sample is high, so WRITE_BYTE returns false. -/
theorem test_W9 : resultsAfter (exec (.writeByte 0x40) opened) = some [.ack false] := by decide +kernel
theorem test_T13 : stopsAfter (exec (.writeByte (-1)) lit) = some (none, some ⟨.byte, 0x04⟩) := by decide

/-! ## Encoder (section 2.2), under the default table -/

/-- E1 to E16. -/
theorem test_E16 : (List.finRange 16).map (encodeDigit SegTable.conventional) =
    [0x3F, 0x06, 0x5B, 0x4F, 0x66, 0x6D, 0x7D, 0x07, 0x7F, 0x6F, 0x77, 0x7C, 0x39, 0x5E, 0x79, 0x71] := by decide
theorem test_E17 : stopsAfter (exec (.encodeDigit 16) lit) = some (none, some ⟨.digit, 0x10⟩) := by decide
/-- E19: in an open frame too, with no event. -/
theorem test_E19 : resultsAfter (exec (.encodeDigit 8) opened) = some [.seg 0x7F] ∧
    newEvents opened (exec (.encodeDigit 8) opened) = some [] := by decide
/-- E22, E23, E26, E29. -/
theorem test_decomposition :
    decSegments SegTable.conventional 42 true 4 = [0x3F, 0x3F, 0x66, 0x5B] ∧
    decSegments SegTable.conventional 0 false 4 = [0x00, 0x00, 0x00, 0x3F] ∧
    decSegments SegTable.conventional 7 false 2 = [0x00, 0x07] ∧
    decSegments SegTable.conventional 100 false 3 = [0x06, 0x3F, 0x3F] := by decide
/-- R111's column of the segments lit, for 4, 7 and 11. -/
theorem test_segments_lit :
    [Segment.A, .B, .C, .D, .E, .F, .G].filter (lights (encodeDigit SegTable.conventional 4)) = [.B, .C, .F, .G] ∧
    [Segment.A, .B, .C, .D, .E, .F, .G].filter (lights (encodeDigit SegTable.conventional 7)) = [.A, .B, .C] ∧
    [Segment.A, .B, .C, .D, .E, .F, .G].filter (lights (encodeDigit SegTable.conventional 11)) = [.C, .D, .E, .F, .G] := by
  decide
/-- R112: too few entries, an entry with bit 7, two equal entries. -/
theorem test_table_rejected :
    SegTable.ofList? [0x3F] = none ∧
    SegTable.ofList? [0xBF, 0x06, 0x5B, 0x4F, 0x66, 0x6D, 0x7D, 0x07, 0x7F, 0x6F, 0x77, 0x7C, 0x39, 0x5E, 0x79, 0x71] =
      none ∧
    SegTable.ofList? [0x06, 0x06, 0x5B, 0x4F, 0x66, 0x6D, 0x7D, 0x07, 0x7F, 0x6F, 0x77, 0x7C, 0x39, 0x5E, 0x79, 0x71] =
      none := by decide

/-! ## Display Controller (section 2.3) -/

/-- B6. -/
theorem test_B6 : exec (.setBrightness 255 false) opened = .next { opened with bright := .held 0x07 } := rfl
theorem test_B8 : stopsAfter (exec (.setBrightness (-1) true) lit) = some (none, some ⟨.level, 0x20⟩) := by decide
theorem test_set_colon : exec (.setColon true) lit = .next lit2 := rfl
theorem test_S1 : framesAfter (exec (.setSegments [0x3F, 0x06] 2 2) lit) = some [[0x40], [0xC2, 0x3F, 0x06], [0x8F]] := by
  decide +kernel
/-- S4: bit 7 verbatim, COLON not applied. -/
theorem test_S4 : framesAfter (exec (.setSegments [0xFF] 1 1) lit2) = some [[0x40], [0xC1, 0xFF], [0x8F]] := by
  decide +kernel
/-- S14: the colon on a blank. S15: position 1 is not written. -/
theorem test_S14 :
    applyColon true 0 (decSegments SegTable.conventional 42 false 4) = [0x00, 0x80, 0x66, 0x5B] ∧
    applyColon true 2 (decSegments SegTable.conventional 12 false 2) = [0x06, 0x5B] := by decide
/-- S12 (W8): position 1 is element 0 of the sequence. -/
theorem test_S12 : framesAfter (exec (.showNumberDec 5 true 1 1) lit2) = some [[0x40], [0xC1, 0xED], [0x8F]] := by
  decide +kernel
theorem test_S25 :
    framesAfter (exec .clear { lit with bright := .held 0x0B }) =
      some [[0x40], [0xC0, 0x00, 0x00, 0x00, 0x00], [0x8B]] := by decide +kernel
theorem test_S26 : stopsAfter (exec .clear State.reset) = some (some ⟨.uninitBright, 0x24⟩, none) := by decide
/-- R165: UNINIT_COLON comes before UNINIT_BRIGHT. -/
theorem test_S24 : stopsAfter (exec (.showNumberDec 5 true 1 0) State.reset) = some (some ⟨.uninitColon, 0x23⟩, none) := by
  decide
/-- R67: under BRIGHT_RESET = Draw any value 0x80..0xFF may appear, here 0x80 | 0x0A. -/
theorem test_drawn_bright : framesAfter (exec (.setSegments [] 0 0) drawn) = some [[0x40], [0xC0], [0x8A]] := by
  decide +kernel

/-! ## Wire bytes: each is added to the open frame as its encoding lays it out -/

theorem test_send_cmd_data : openFrame (exec .cmdData opened) = some [0x40] := by decide +kernel
theorem test_send_cmd_dispctrl : openFrame (exec (.cmdDispCtrl true 5) opened) = some [0x8D] := by decide +kernel
theorem test_send_cmd_addr : openFrame (exec (.cmdAddr 3) opened) = some [0xC3] := by decide +kernel
theorem test_send_seg_data : openFrame (exec (.segData 0xA5) opened) = some [0xA5] := by decide +kernel

/-! ## The step, the reference receiver and the assembly syntax -/

/-- R63, R165 (2): before the check that the instance exists. -/
theorem test_step_reserved :
    stopsAfter (step { State.unconstructed Config.default with prog := [.op ⟨0x24 + 1, []⟩] }) =
      some (none, some ⟨.opsel, 0x25⟩) := by decide
theorem test_step_fetches_a_table_word : step (State.reset.withFetchWord 8 0x02) = exec .start State.reset := rfl
/-- P2's second write: "12:34" with a dash at position 1. -/
theorem test_receiver_partial_write :
    Receiver.ofFrames [[0x40], [0xC0, 0x06, 0xDB, 0x4F, 0x66], [0x8A], [0x40], [0xC1, 0x40], [0x8A]] =
      ⟨some true, [(0, 0x06), (1, 0x40), (2, 0x4F), (3, 0x66)], some 0x0A⟩ := by decide
/-- P3: position 3 alone is known. -/
theorem test_receiver_P3 : Receiver.ofFrames [[0x40], [0xC3, 0x7F]] = ⟨some true, [(3, 0x7F)], none⟩ := by decide
/-- R69: a display-control byte that collides with an address command is read as an address frame of no bytes. -/
theorem test_receiver_collision :
    Receiver.ofFrames [[0x40], [0xC0, 0x06], [0x80 ||| 0x43]] = ⟨some true, [(0, 0x06)], none⟩ := by decide
/-- R151: any other frame, here an address frame past position 3, leaves the receiver UNKNOWN. -/
theorem test_receiver_other_frame :
    Receiver.ofFrames [[0x40], [0xC3, 0x7F], [0xC3, 0x01, 0x02]] = ⟨none, [], none⟩ := by decide
/-- P1's text, with R64's comment. -/
theorem test_assembly_P1 :
    readProgram ["CONSTRUCT 2, 3          ; the pins", "SET_BRIGHTNESS 7", "SET_COLON false", "SHOW_NUMBER_DEC 42, false, 4, 0"] =
      some [.op ⟨0x00, [.pin ⟨2⟩, .pin ⟨3⟩]⟩, .op ⟨0x20, [.int 7]⟩, .op ⟨0x21, [.bool false]⟩,
        .op ⟨0x23, [.int 42, .bool false, .int 4, .int 0]⟩] := by decide +kernel
/-- R64's examples with a list and with hexadecimal. -/
theorem test_assembly_list :
    readProgram ["SET_SEGMENTS [0x3F, 0x06], 2, 2", "WRITE_BYTE 0x40"] =
      some [.op ⟨0x22, [.ints [0x3F, 0x06], .int 2, .int 2]⟩, .op ⟨0x04, [.int 0x40]⟩] := by decide +kernel
theorem test_assembly_rejects :
    readProgram ["HALT"] = none ∧ readProgram ["WRITE_BYTE 4F"] = none ∧ readProgram ["WRITE_BYTE 0x"] = none := by
  decide +kernel
/-- Log 15: a digit of either case, and a minus sign. -/
theorem test_assembly_numerals :
    readInt "0xa5".toList = some 0xA5 ∧ readInt "0xA5".toList = some 0xA5 ∧ readInt "-12".toList = some (-12) := by
  decide +kernel

/-! ## Witnesses: what the hypotheses of the obligations ask for holds somewhere -/

theorem unmade_running : (State.unconstructed Config.default).running := by decide
theorem reset_ready : State.reset.ready := by decide
theorem lit_ready : lit.ready := by decide
theorem opened_ready : opened.ready := by decide
theorem drawn_ready : drawn.ready := by decide

theorem lit_line : LineInv lit := fun _ => ⟨by decide, rfl, rfl, .inl ⟨rfl, rfl⟩⟩
theorem drawn_line : LineInv drawn := fun _ => ⟨by decide, rfl, rfl, .inl ⟨rfl, rfl⟩⟩
theorem opened_line : LineInv opened := fun _ => ⟨by decide, rfl, .inl ⟨rfl, rfl, rfl⟩⟩
theorem lit_wire : WireInv lit := fun _ => by decide
theorem drawn_wire : WireInv drawn := fun _ => by decide
theorem opened_wire : WireInv opened := fun _ => by decide
theorem lit_port : PortInv lit :=
  ⟨fun _ e he => by
    rcases List.mem_cons.mp he with rfl | he
    · exact .inl rfl
    · obtain rfl := List.mem_singleton.mp he
      exact .inr rfl, fun h => by cases h⟩
theorem lit_registers : RegisterInv lit := ⟨fun _ => ⟨.inl rfl, trivial⟩, .inl rfl⟩

theorem witness_ConstructIsTheReset :
    ((State.unconstructed Config.default).running ∧ (State.unconstructed Config.default).constructed = false) ∧
    (lit.running ∧ lit.constructed = true) := by decide

theorem witness_OperationsNeedExactlyOneConstruct :
    ((State.unconstructed Config.default).running ∧ (∀ clk dio, Instr.clear ≠ .construct clk dio) ∧
      (State.unconstructed Config.default).constructed = false) ∧ (lit.running ∧ lit.constructed = true) :=
  ⟨⟨by decide, (by intro _ _ h; cases h), rfl⟩, by decide⟩

theorem witness_FaultsArePreciseAndSticky :
    (∃ t, exec .clear State.reset = .next t ∧ t.fault ≠ State.reset.fault) ∧
    (raiseFault .framingIdle 0x03 lit).fault = some ⟨.framingIdle, 0x03⟩ :=
  ⟨⟨_, rfl, by decide⟩, rfl⟩

theorem witness_RefusalsArePreciseAndSticky :
    (∃ t, exec (.encodeDigit 16) lit = .next t ∧ t.refused ≠ lit.refused) ∧
    (refuse .digit 0x10 lit).fault = none ∧ (refuse .digit 0x10 lit).refused = some ⟨.digit, 0x10⟩ :=
  ⟨⟨_, rfl, by decide⟩, rfl, rfl⟩

/-- Every clause: the operations that open a frame, in a frame, and those that need one, outside it. -/
theorem witness_FramingChecks :
    (opened.ready ∧ opened.phase = .framed ∧ Instr.start.wellFormed = true ∧
      (Instr.setSegments [] 0 3).wellFormed = true ∧ (Instr.showNumberDec 0 false 1 3).wellFormed = true ∧
      Instr.clear.wellFormed = true) ∧
    (lit.ready ∧ lit.phase = .idle ∧ Instr.stop.wellFormed = true ∧ (Instr.writeByte 255).wellFormed = true ∧
      Instr.cmdData.wellFormed = true ∧ (Instr.cmdDispCtrl true 7).wellFormed = true ∧
      (Instr.cmdAddr 3).wellFormed = true ∧ (Instr.segData 0xFF).wellFormed = true) := by decide

theorem witness_OperandsAreRefusedExactlyOutsideTheirDomain :
    lit.ready ∧ (∀ clk dio, Instr.writeByte 255 ≠ .construct clk dio) ∧ (Instr.writeByte 255).wellFormed = true ∧
    (Instr.writeByte 256).wellFormed = false :=
  ⟨lit_ready, (by intro _ _ h; cases h), by decide, by decide⟩

/-- The ends of the three reserved ranges. -/
theorem witness_ReservedSelectorsAreRefused :
    lit.running ∧ ∀ op ∈ [0x05, 0x0F, 0x11, 0x1F, 0x25, 0xFF],
      { lit with prog := [.op ⟨op, []⟩] }.prog = .op (HostOp.mk op []) :: [] ∧
      ((0x05 ≤ op.toNat ∧ op.toNat ≤ 0x0F) ∨ (0x11 ≤ op.toNat ∧ op.toNat ≤ 0x1F) ∨
        (0x25 ≤ op.toNat ∧ op.toNat ≤ 0xFF)) := by decide

theorem witness_StepRunsTheDecodedOperation :
    (lit.running ∧ { lit with prog := [.op ⟨0x24, []⟩] }.prog = [.op ⟨0x24, []⟩] ∧
      decode (.op ⟨0x24, []⟩) = .ok .clear) ∧
    decodeTableWord 8 0x24 = some .clear ∧ decodeTableWord 8 0x8D = some (.cmdDispCtrl true 5) :=
  ⟨⟨by decide, rfl, rfl⟩, by decide, by decide⟩

theorem witness_StepStopsOnlyWhereTheHostOffersNoOperation :
    (lit.running ∧ lit.prog = []) ∧
    ({ lit with prog := [.wire .command 0x90] }.running ∧ decode (.wire .command 0x90) = .error (.notACommand 0x90)) ∧
    ({ lit with prog := [.op ⟨0x24, [.int 0]⟩] }.running ∧
      decode (.op ⟨0x24, [.int 0]⟩) = .error (.illTypedOperands 0x24)) :=
  ⟨by decide, ⟨by decide, rfl⟩, by decide, rfl⟩

theorem witness_ARunningEngineTakesEveryOperation :
    lit.runEnd? = some .normal ∧ (raiseFault .framingIdle 0x03 lit).runEnd? = some (.fault ⟨.framingIdle, 0x03⟩) ∧
    (refuse .num 0x23 lit).runEnd? = some (.refused ⟨.num, 0x23⟩) ∧
    { lit with prog := [.op ⟨0x24, []⟩] }.runEnd? = none ∧ decode (.op ⟨0x24, []⟩) = .ok .clear :=
  ⟨rfl, rfl, rfl, rfl, rfl⟩

/-- Both shapes a decoding slot can have. -/
theorem witness_DecodeInvertsEncode :
    decode (.wire .segment 0x40) = .ok (.segData 0x40) ∧ decode (.op ⟨0x20, [.int 8]⟩) = .ok (.setBrightness 8 true) ∧
    (.op ⟨0x20, [.int 8]⟩ : Slot) ≠ encode (.setBrightness 8 true) :=
  ⟨rfl, rfl, by decide⟩

/-- BIT_DELAY, ENCODE_DIGIT, SET_BRIGHTNESS and SET_COLON are allowed in both phases. -/
theorem witness_ready_in_both_phases : (lit.ready ∧ lit.phase = .idle) ∧ (opened.ready ∧ opened.phase = .framed) := by
  decide

theorem witness_StartEmitsTheStartSequence :
    (opened.ready ∧ opened.phase = .framed) ∧ (lit.ready ∧ lit.phase ≠ .framed ∧ LineInv lit) :=
  ⟨by decide, by decide, by decide, lit_line⟩

theorem witness_StopEmitsTheStopSequence :
    (lit.ready ∧ lit.phase = .idle) ∧ (opened.ready ∧ opened.phase ≠ .idle ∧ opened.dioDir = .out) ∧
    ((sendByteForHost 0x40 opened).ready ∧ (sendByteForHost 0x40 opened).phase ≠ .idle ∧
      (sendByteForHost 0x40 opened).dioDir ≠ .out) := by decide +kernel

theorem witness_WriteByteSendsEightBitsAndSamples :
    opened.ready ∧ opened.phase ≠ .idle ∧ lit.phase = .idle ∧ (0 ≤ (255 : Int) ∧ (255 : Int) ≤ 255) ∧
    ¬ (0 ≤ (256 : Int) ∧ (256 : Int) ≤ 255) ∧ ¬ (0 ≤ (-1 : Int) ∧ (-1 : Int) ≤ 255) := by decide

/-- Every wire row, at the ends of its fields. -/
theorem witness_WireBytesAreSentByWriteByte :
    opened.ready ∧ opened.phase = .framed ∧ wireByteOf .cmdData = some 0x40 ∧
    wireByteOf (.cmdDispCtrl true 7) = some 0x8F ∧ wireByteOf (.cmdDispCtrl false 0) = some 0x80 ∧
    wireByteOf (.cmdAddr 3) = some 0xC3 ∧ wireByteOf (.segData 0xFF) = some 0xFF := by decide

theorem witness_OperationsEmitTheirCounts :
    (LineInv lit ∧ ∃ t, exec .start lit = .next t ∧ t.running) ∧
    (LineInv opened ∧ ∃ t, exec (.writeByte 0x40) opened = .next t ∧ t.running) :=
  ⟨⟨lit_line, _, rfl, by decide⟩, opened_line, _, rfl, by decide +kernel⟩

theorem witness_EncodeDigitLooksUpTheTable :
    lit.ready ∧ ¬ (0 ≤ (16 : Int) ∧ (16 : Int) ≤ 15) ∧ ¬ (0 ≤ (-1 : Int) ∧ (-1 : Int) ≤ 15) ∧
    (0 ≤ (15 : Int) ∧ (15 : Int) ≤ 15) := by decide

theorem witness_DecimalDigitsAddUpToTheNumber : (9999 : Nat) < 10 ^ 4 ∧ (0 : Nat) < 10 ^ 1 := by decide

theorem witness_BlanksFormAPrefix :
    (1 ≤ 4 ∧ (42 : Nat) < 10 ^ 4 ∧ blank 42 false 4 1 = true ∧ blank 42 false 4 2 = false) ∧
    (1 ≤ 1 ∧ (0 : Nat) < 10 ^ 1) := by decide

theorem witness_SetBrightnessWritesBright : lit.ready ∧ (-1 : Int) < 0 ∧ ¬ (0 : Int) < 0 := by decide

/-- One witness a clause, at the ends of the ranges. -/
theorem witness_SetSegmentsFollowsItsRule :
    lit.ready ∧ LineInv lit ∧ lit.phase ≠ .framed ∧ lit.bright ≠ .noValue ∧
    ¬ (0 ≤ (5 : Int) ∧ (5 : Int) ≤ 4) ∧ ¬ (0 ≤ (4 : Int) ∧ (4 : Int) ≤ 3) ∧ 4 < (3 : Int) + 2 ∧
    ((([0x3F] : List Int).length : Int) < 2) ∧
    (∃ x ∈ ([0x100] : List Int).take (1 : Int).toNat, ¬ (0 ≤ x ∧ x ≤ 255)) ∧
    (opened.ready ∧ LineInv opened ∧ opened.phase = .framed) ∧ State.reset.bright = .noValue ∧
    (Instr.setSegments [1, 2, 3, 4] 4 0).wellFormed = true ∧ (Instr.setSegments [] 0 3).wellFormed = true :=
  ⟨by decide, lit_line, by decide, by decide, by decide, by decide, by decide, by decide, by decide,
    ⟨by decide, opened_line, by decide⟩, by decide, by decide, by decide⟩

/-- One witness a clause, at the ends of the ranges. -/
theorem witness_ShowNumberDecFollowsItsRule :
    lit.ready ∧ LineInv lit ∧ lit.phase ≠ .framed ∧ lit.bright ≠ .noValue ∧ lit.colon ≠ .noValue ∧
    ¬ (1 ≤ (0 : Int) ∧ (0 : Int) ≤ 4) ∧ ¬ (0 ≤ (4 : Int) ∧ (4 : Int) ≤ 3) ∧ 4 < (3 : Int) + 2 ∧
    ¬ (0 ≤ (10 : Int) ∧ (10 : Int) < 10 ^ (1 : Int).toNat) ∧
    (opened.ready ∧ LineInv opened ∧ opened.phase = .framed) ∧ State.reset.colon = .noValue ∧
    ({ lit with bright := .noValue }.colon ≠ .noValue ∧ { lit with bright := .noValue }.bright = .noValue) ∧
    (Instr.showNumberDec 9999 false 4 0).wellFormed = true ∧ (Instr.showNumberDec 0 false 1 3).wellFormed = true :=
  ⟨by decide, lit_line, by decide, by decide, by decide, by decide, by decide, by decide, by decide,
    ⟨by decide, opened_line, by decide⟩, by decide, by decide, by decide, by decide⟩

theorem witness_ClearIsFourBlankSegments :
    (lit.ready ∧ LineInv lit ∧ lit.phase ≠ .framed ∧ lit.bright ≠ .noValue) ∧
    (opened.ready ∧ LineInv opened ∧ opened.phase = .framed) ∧ State.reset.bright = .noValue :=
  ⟨⟨by decide, lit_line, by decide, by decide⟩, ⟨by decide, opened_line, by decide⟩, by decide⟩

theorem witness_DrawnBrightIsDrawnAfresh :
    writesDisplay (.setSegments [0xFF] 1 3) = true ∧ writesDisplay (.showNumberDec 5 true 1 1) = true ∧
    writesDisplay .clear = true ∧ (Instr.setSegments [0xFF] 1 3).wellFormed = true ∧
    (Instr.showNumberDec 5 true 1 1).wellFormed = true ∧ Instr.clear.wellFormed = true ∧
    drawn.ready ∧ LineInv drawn ∧ WireInv drawn ∧ drawn.phase = .idle ∧ drawn.bright = .drawn ∧
    drawn.colon ≠ .noValue ∧ drawn.env.brights = 0x0A :: 0x5C :: [] :=
  ⟨by decide, by decide, by decide, by decide, by decide, by decide, by decide, drawn_line, drawn_wire, by decide,
    by decide, by decide, by decide⟩

/-- For TraceOnlyGrows and the table's third clause. -/
theorem witness_next_state : ∃ t, exec .start lit = .next t := ⟨_, rfl⟩

/-- One witness a clause: an operation that writes no line, one that writes no line but TRACE, one that moves no phase, one
that returns no result and meets no environment, and one that is stopped. -/
theorem witness_RegistersAreWrittenOnlyByTheirOperations :
    ((∃ t, exec .start lit = .next t) ∧ (∀ clk dio, Instr.start ≠ .construct clk dio) ∧
      (∀ level on, Instr.start ≠ .setBrightness level on) ∧ (∀ on, Instr.start ≠ .setColon on) ∧
      sendsByte .start = false ∧ (∀ digit, Instr.start ≠ .encodeDigit digit) ∧ writesDisplay .start = false) ∧
    ((∃ t, exec (.setColon true) lit = .next t) ∧ movesPhase (.setColon true) = false ∧
      writesLines (.setColon true) = false ∧ Instr.setColon true ≠ .bitDelay) ∧
    ((∃ t, exec .bitDelay lit = .next t) ∧ writesLines .bitDelay = false) ∧
    ((∃ t, exec .clear lit = .next t) ∧ movesPhase .clear = false) ∧
    ∃ t, exec .stop lit = .next t ∧ ¬ (t.fault = lit.fault ∧ t.refused = lit.refused) :=
  ⟨⟨⟨_, rfl⟩, (by intro _ _ h; cases h), (by intro _ _ h; cases h), (by intro _ h; cases h), rfl,
      (by intro _ h; cases h), rfl⟩,
    ⟨⟨_, rfl⟩, rfl, rfl, (by intro h; cases h)⟩, ⟨⟨_, rfl⟩, rfl⟩, ⟨⟨_, rfl⟩, rfl⟩, _, rfl, by decide⟩

theorem witness_AckLevelsDecideOnlyReadsAndResults :
    opened.bright ≠ .drawn ∧ opened.colon ≠ .drawn ∧ ∃ t, exec (.writeByte 0x40) opened = .next t :=
  ⟨by decide, by decide, _, rfl⟩

theorem witness_EveryStepKeepsTheInvariants :
    LineInv lit ∧ WireInv lit ∧ PortInv lit ∧ RegisterInv lit ∧ ∃ t, step (lit.withFetchWord 8 0x02) = .next t :=
  ⟨lit_line, lit_wire, lit_port, lit_registers, _, rfl⟩

theorem witness_TransportOperationsOnTheWire :
    (lit.ready ∧ LineInv lit ∧ WireInv lit ∧ lit.phase = .idle) ∧
    (opened.ready ∧ LineInv opened ∧ WireInv opened ∧ opened.phase = .framed) :=
  ⟨⟨by decide, lit_line, lit_wire, by decide⟩, by decide, opened_line, opened_wire, by decide⟩

/-- What BRIGHT can read as: a byte with bits 6:4 zero, held and drawn; one that collides with the address commands; one
that does neither. -/
theorem witness_bright_reads :
    (BrightReadsAs lit 0x0F lit.env ∧ (0x0F &&& 0x70 : Byte) = 0) ∧
    (∃ e, BrightReadsAs drawn 0x0A e ∧ (0x0A &&& 0x70 : Byte) = 0) ∧
    (BrightReadsAs { lit with bright := .held 0x43 } 0x43 lit.env ∧ (0x43 &&& 0x70 : Byte) ≠ 0 ∧
      (0x43 &&& 0x7C : Byte) = 0x40) ∧
    (BrightReadsAs { lit with bright := .held 0x10 } 0x10 lit.env ∧ (0x10 &&& 0x70 : Byte) ≠ 0 ∧
      (0x10 &&& 0x7C : Byte) ≠ 0x40) :=
  ⟨⟨.inl ⟨rfl, rfl⟩, by decide⟩, ⟨_, .inr ⟨rfl, rfl, rfl⟩, by decide⟩, ⟨.inl ⟨rfl, rfl⟩, by decide, by decide⟩,
    .inl ⟨rfl, rfl⟩, by decide, by decide⟩

/-- For SetSegmentsOnTheWire and SetSegmentsWritesExactlyItsPositions, BRIGHT held and drawn. -/
theorem witness_SetSegmentsOnTheWire :
    (lit.ready ∧ LineInv lit ∧ WireInv lit ∧ lit.phase = .idle ∧ BrightReadsAs lit 0x0F lit.env) ∧
    (drawn.ready ∧ LineInv drawn ∧ WireInv drawn ∧ drawn.phase = .idle ∧ ∃ e, BrightReadsAs drawn 0x0A e) ∧
    (Instr.setSegments [1, 2, 3, 4] 4 0).wellFormed = true ∧ (Instr.setSegments [] 0 3).wellFormed = true :=
  ⟨⟨by decide, lit_line, lit_wire, by decide, .inl ⟨rfl, rfl⟩⟩,
    ⟨by decide, drawn_line, drawn_wire, by decide, _, .inr ⟨rfl, rfl, rfl⟩⟩, by decide, by decide⟩

/-- COLON and BRIGHT held, and both drawn. -/
theorem witness_ShowNumberDecShowsTheNumber :
    (lit.ready ∧ LineInv lit ∧ WireInv lit ∧ lit.phase = .idle ∧ ColonReadsAs lit false lit.env ∧
      BrightReadsAs { lit with env := lit.env } 0x0F lit.env) ∧
    (drawn.ready ∧ LineInv drawn ∧ WireInv drawn ∧ drawn.phase = .idle ∧
      ∃ e e', ColonReadsAs drawn true e ∧ BrightReadsAs { drawn with env := e } 0x0A e') ∧
    (Instr.showNumberDec 9999 false 4 0).wellFormed = true ∧ (Instr.showNumberDec 0 false 1 1).wellFormed = true :=
  ⟨⟨by decide, lit_line, lit_wire, by decide, .inl ⟨rfl, rfl⟩, .inl ⟨rfl, rfl⟩⟩,
    ⟨by decide, drawn_line, drawn_wire, by decide, _, _, .inr ⟨rfl, rfl, rfl⟩, .inr ⟨rfl, rfl, rfl⟩⟩,
    by decide, by decide⟩

end Sys2Proof.Tests
end

section
/-! PROOFS. The step of a running engine and the operation it decodes (R15, R21, R48). -/

namespace Sys2Proof

/-- A table word decodes exactly where it is a byte whose slot decodes, and to what that slot decodes to. -/
theorem decodeTableWord_eq_some_iff {nbits w : Nat} {i : Instr} :
    decodeTableWord nbits w = some i ↔
      (nbits ≤ 8 ∧ w < 256) ∧ decode (slotOfTableByte (BitVec.ofNat 8 w)) = .ok i := by
  unfold decodeTableWord
  split
  next hbyte => cases decode (slotOfTableByte (BitVec.ofNat 8 w)) <;> simp [hbyte]
  next hbyte => simp [hbyte]

end Sys2Proof

namespace Sys2Proof.Machine

@[simp] theorem withFetchWord_prog (s : State) (nbits w : Nat) :
    (s.withFetchWord nbits w).prog = slotOfTableByte (BitVec.ofNat 8 w) :: s.prog := rfl

/-- The step of a running engine whose next slot decodes takes that slot off the host's list and performs it. -/
theorem step_of_decode_ok {s : State} {slot : Slot} {rest : List Slot} {i : Instr} (hr : s.running)
    (hp : s.prog = slot :: rest) (hd : decode slot = .ok i) : step s = exec i { s with prog := rest } := by
  simp [step, unlessStopped_running hr, hp, hd]

/-- Fetching a table word puts its slot before the host's list, so the step that takes the slot off restores the list. -/
theorem step_withFetchWord_of_decodeTableWord {s : State} {nbits w : Nat} {i : Instr} (hr : s.running)
    (hd : decodeTableWord nbits w = some i) : step (s.withFetchWord nbits w) = exec i s := by
  obtain ⟨-, hslot⟩ := decodeTableWord_eq_some_iff.mp hd
  have hr' : (s.withFetchWord nbits w).running := hr
  exact step_of_decode_ok hr' (withFetchWord_prog s nbits w) hslot

/-- Settles O9: both parts are the step's equation on a decoding slot, the second by the slot the table word lays out. -/
theorem stepRunsTheDecodedOperation : Obligations.StepRunsTheDecodedOperation :=
  ⟨fun _ _ _ _ => step_of_decode_ok, fun _ _ _ _ => step_withFetchWord_of_decodeTableWord⟩

end Sys2Proof.Machine
end

section
/-! PROOFS. What the operations that reach the lines do when they are performed, and the line invariant (R26, R84, R94,
R187). -/

namespace Sys2Proof.Machine

/-! ## The operations by what they do to the lines -/

/-- R180 as one state update. -/
theorem constructBody_eq (clk dio : PinId) (s : State) :
    constructBody clk dio s = { s with
      constructed := true
      clkPin := clk
      dioPin := dio
      bright := resetRegister s.cfg.brightReset
      colon := resetRegister s.cfg.colonReset
      phase := .idle
      clkDir := .out
      dioDir := .out
      clkLvl := .unknown
      dioLvl := .unknown
      trace := s.trace ++ [.cfgOut clk, .cfgOut dio]
      fault := none
      refused := none } := by
  simp [constructBody, emit]

/-- R87, R73: each operation that sends one byte needs an open frame and sends its byte for the host. -/
theorem performed_of_sendsByte {i : Instr} {s t : State} (hi : sendsByte i = true) (h : Performed i s t) :
    s.constructed = true ∧ s.phase = .framed ∧ ∃ b, t = sendByteForHost b s := by
  cases i with
  | writeByte b =>
    obtain ⟨hc, -, hp, rfl⟩ := h
    exact ⟨hc, hp, _, rfl⟩
  | cmdData | cmdDispCtrl on level | cmdAddr pos | segData b =>
    obtain ⟨hc, hp, rfl⟩ := h
    exact ⟨hc, hp, _, rfl⟩
  | _ => cases hi

/-- R134, R140, R145: each display write needs an idle bus and sends the three frames after its draws. -/
theorem performed_of_writesDisplay {i : Instr} {s t : State} (hi : writesDisplay i = true) (h : Performed i s t) :
    s.constructed = true ∧ s.phase = .idle ∧
      ∃ segs pos v e, t = sendDisplay segs pos (controlByte v) { s with env := e } := by
  cases i with
  | setSegments segments length pos =>
    obtain ⟨hc, -, -, -, -, hp, v, e, -, rfl⟩ := h
    exact ⟨hc, hp, _, _, v, e, rfl⟩
  | showNumberDec num lz length pos =>
    obtain ⟨hc, -, -, -, -, hp, c, e, v, e', -, -, rfl⟩ := h
    exact ⟨hc, hp, _, _, v, e', rfl⟩
  | clear =>
    obtain ⟨hc, hp, v, e, -, rfl⟩ := h
    exact ⟨hc, hp, _, _, v, e, rfl⟩
  | _ => cases hi

/-! ## The line invariant, read and restored -/

theorem LineInv.pins_ne {s : State} (h : LineInv s) (hc : s.constructed = true) : s.clkPin ≠ s.dioPin := (h hc).1

theorem LineInv.clkDir {s : State} (h : LineInv s) (hc : s.constructed = true) : s.clkDir = .out := (h hc).2.1

/-- R187: the lines between frames. -/
theorem LineInv.idle {s : State} (h : LineInv s) (hc : s.constructed = true) (hp : s.phase = .idle) :
    s.dioDir = .out ∧
      ((s.clkLvl = .unknown ∧ s.dioLvl = .unknown) ∨ (s.clkLvl = .driven .high ∧ s.dioLvl = .driven .high)) := by
  have hl := (h hc).2.2
  rwa [hp] at hl

/-- R84, R94: the lines in a frame. -/
theorem LineInv.framed {s : State} (h : LineInv s) (hc : s.constructed = true) (hp : s.phase = .framed) :
    (s.dioDir = .out ∧ s.clkLvl = .driven .high ∧ s.dioLvl = .driven .low) ∨
      (s.dioDir = .inPullup ∧ s.clkLvl = .driven .low ∧ s.dioLvl = .unknown) := by
  have hl := (h hc).2.2
  rwa [hp] at hl

theorem lineInv_constructBody {clk dio : PinId} {s : State} (hne : clk ≠ dio) : LineInv (constructBody clk dio s) := by
  rw [constructBody_eq]
  exact fun _ => ⟨hne, rfl, rfl, .inl ⟨rfl, rfl⟩⟩

theorem lineInv_startBody {s : State} (h : LineInv s) (hc : s.constructed = true) : LineInv (startBody s) := by
  rw [startBody_eq]
  exact fun _ => ⟨h.pins_ne hc, h.clkDir hc, .inl ⟨rfl, rfl, rfl⟩⟩

theorem lineInv_stopBody {s : State} (h : LineInv s) (hc : s.constructed = true) : LineInv (stopBody s) := by
  rw [stopBody_eq]
  exact fun _ => ⟨h.pins_ne hc, h.clkDir hc, rfl, .inr ⟨rfl, rfl⟩⟩

theorem lineInv_sendByteForHost {s : State} (b : Byte) (h : LineInv s) (hc : s.constructed = true)
    (hp : s.phase = .framed) : LineInv (sendByteForHost b s) := by
  rw [sendByteForHost_eq]
  refine fun _ => ⟨h.pins_ne hc, h.clkDir hc, ?_⟩
  simp [hp]

/-- A transmission that ends in STOP leaves an idle bus, both lines high. -/
theorem Transmits.lineInv {s t : State} (ht : Transmits s t) (h : LineInv s) : LineInv t := by
  obtain ⟨new, e, rfl⟩ := ht
  exact fun hc => ⟨h.pins_ne hc, h.clkDir hc, rfl, .inr ⟨rfl, rfl⟩⟩

theorem lineInv_sendDisplay {s : State} (segs : List Byte) (pos : Nat) (ctrl : Byte) (e : Env) (h : LineInv s) :
    LineInv (sendDisplay segs pos ctrl { s with env := e }) :=
  (sendDisplay_transmits segs pos ctrl { s with env := e }).lineInv h

/-! ## Every operation keeps it -/

theorem lineInv_takeStop {s : State} (k : Stop) (op : Opsel) (h : LineInv s) : LineInv (takeStop k op s) := by
  rcases takeStop_cases k op s with ⟨f, ht⟩ | ⟨r, ht⟩ <;> rw [ht] <;> exact h

theorem lineInv_of_performed {i : Instr} {s t : State} (h : LineInv s) (hp : Performed i s t) : LineInv t := by
  cases i with
  | construct clk dio =>
    obtain ⟨-, hne, rfl⟩ := hp
    exact lineInv_constructBody hne
  | start =>
    obtain ⟨hc, -, rfl⟩ := hp
    exact lineInv_startBody h hc
  | stop =>
    obtain ⟨hc, -, rfl⟩ := hp
    exact lineInv_stopBody h hc
  | bitDelay | setColon on =>
    obtain ⟨-, rfl⟩ := hp
    exact h
  | encodeDigit digit | setBrightness level on =>
    obtain ⟨-, -, rfl⟩ := hp
    exact h
  | writeByte b | cmdData | cmdDispCtrl on level | cmdAddr pos | segData b =>
    obtain ⟨hc, hf, b, rfl⟩ := performed_of_sendsByte rfl hp
    exact lineInv_sendByteForHost b h hc hf
  | setSegments segments length pos | showNumberDec num lz length pos | clear =>
    obtain ⟨-, -, segs, pos, v, e, rfl⟩ := performed_of_writesDisplay rfl hp
    exact lineInv_sendDisplay segs pos _ e h

/-- Settles O33: the line invariant does not look at the host's list, and stops and performed operations keep it. -/
theorem everyStepKeepsTheLineInvariant : Obligations.EveryStepKeepsTheLineInvariant :=
  fun _ _ hi h => step_keeps (fun _ _ hi => hi) (fun _ k op _ => lineInv_takeStop k op)
    (fun _ _ _ _ => lineInv_of_performed) h hi

end Sys2Proof.Machine
end

section
/-! PROOFS. The port invariant (R80) and the wire invariant (R26, R45, R85, R92, R93). -/

namespace Sys2Proof.Machine

/-! ## The events of the rules are those the port rule allows -/

section
variable (c d : PinId) (released x : Bool) (b : Byte) (v : Level)

theorem startEvents_allowed : ∀ e ∈ startEvents c d released, e.allowed c d := by
  cases released <;> simp [startEvents, reconfigureEvents, PinEvent.allowed]

theorem stopEvents_allowed : ∀ e ∈ stopEvents c d released, e.allowed c d := by
  cases released <;> simp [stopEvents, reconfigureEvents, PinEvent.allowed]

theorem cellEvents_allowed : ∀ e ∈ cellEvents c d released x, e.allowed c d := by
  cases released <;> cases x <;> simp [cellEvents, reconfigureEvents, PinEvent.allowed]

theorem ackEvents_allowed : ∀ e ∈ ackEvents c d v, e.allowed c d := by
  simp [ackEvents, PinEvent.allowed]

theorem byteEvents_allowed : ∀ e ∈ byteEvents c d released b v, e.allowed c d := by
  simp only [byteEvents, List.forall_mem_append]
  refine ⟨⟨⟨⟨⟨⟨⟨⟨?_, ?_⟩, ?_⟩, ?_⟩, ?_⟩, ?_⟩, ?_⟩, ?_⟩, ackEvents_allowed c d v⟩ <;> exact cellEvents_allowed c d _ _

end

/-- The pins stay the same, and TRACE grows by events the port rule allows (R80). -/
structure AllowedEmission (s t : State) : Prop where
  constructed : t.constructed = s.constructed
  clkPin : t.clkPin = s.clkPin
  dioPin : t.dioPin = s.dioPin
  trace : ∃ new, t.trace = s.trace ++ new ∧ ∀ e ∈ new, e.allowed s.clkPin s.dioPin

theorem AllowedEmission.refl (s : State) : AllowedEmission s s := ⟨rfl, rfl, rfl, [], by simp⟩

theorem AllowedEmission.trans {s t u : State} (h : AllowedEmission s t) (h' : AllowedEmission t u) :
    AllowedEmission s u := by
  obtain ⟨hc, hk, hd, new, ht, ha⟩ := h
  obtain ⟨hc', hk', hd', new', ht', ha'⟩ := h'
  rw [hk, hd] at ha'
  exact ⟨hc'.trans hc, hk'.trans hk, hd'.trans hd, new ++ new', by rw [ht', ht, List.append_assoc],
    List.forall_mem_append.mpr ⟨ha, ha'⟩⟩

theorem AllowedEmission.portInv {s t : State} (h : AllowedEmission s t) (hc : s.constructed = true) (hi : PortInv s) :
    PortInv t := by
  obtain ⟨hct, hk, hd, new, ht, ha⟩ := h
  refine ⟨fun _ => ?_, fun hf => by simp [hct, hc] at hf⟩
  rw [ht, hk, hd]
  exact List.forall_mem_append.mpr ⟨hi.1 hc, ha⟩

theorem delay_allowedEmission (s : State) : AllowedEmission s (delay s) :=
  ⟨rfl, rfl, rfl, _, rfl, by simp [PinEvent.allowed]⟩

theorem startBody_allowedEmission (s : State) : AllowedEmission s (startBody s) := by
  rw [startBody_eq]
  exact ⟨rfl, rfl, rfl, _, rfl, startEvents_allowed _ _ _⟩

theorem stopBody_allowedEmission (s : State) : AllowedEmission s (stopBody s) := by
  rw [stopBody_eq]
  exact ⟨rfl, rfl, rfl, _, rfl, stopEvents_allowed _ _ _⟩

theorem sendByte_allowedEmission (b : Byte) (s : State) : AllowedEmission s (sendByte b s) := by
  rw [sendByte_eq]
  exact ⟨rfl, rfl, rfl, _, rfl, byteEvents_allowed _ _ _ _ _⟩

theorem sendByteForHost_allowedEmission (b : Byte) (s : State) : AllowedEmission s (sendByteForHost b s) := by
  rw [sendByteForHost_eq]
  exact ⟨rfl, rfl, rfl, _, rfl, byteEvents_allowed _ _ _ _ _⟩

theorem sendBytes_allowedEmission (bytes : List Byte) (s : State) :
    AllowedEmission s (bytes.foldl (fun s b => sendByte b s) s) := by
  induction bytes generalizing s with
  | nil => exact .refl s
  | cons b bytes ih =>
    rw [List.foldl_cons]
    exact (sendByte_allowedEmission b s).trans (ih (sendByte b s))

theorem sendFrame_allowedEmission (bytes : List Byte) (s : State) : AllowedEmission s (sendFrame bytes s) :=
  ((startBody_allowedEmission s).trans (sendBytes_allowedEmission bytes _)).trans (stopBody_allowedEmission _)

theorem sendDisplay_allowedEmission (segs : List Byte) (pos : Nat) (ctrl : Byte) (s : State) :
    AllowedEmission s (sendDisplay segs pos ctrl s) :=
  ((sendFrame_allowedEmission _ _).trans (sendFrame_allowedEmission _ _)).trans (sendFrame_allowedEmission _ _)

/-! ## The port invariant -/

theorem portInv_takeStop {s : State} (k : Stop) (op : Opsel) (h : PortInv s) : PortInv (takeStop k op s) := by
  rcases takeStop_cases k op s with ⟨f, ht⟩ | ⟨r, ht⟩ <;> rw [ht] <;> exact h

/-- Before CONSTRUCT there is no event, so its two are the only ones. -/
theorem portInv_constructBody {clk dio : PinId} {s : State} (hc : s.constructed = false) (h : PortInv s) :
    PortInv (constructBody clk dio s) := by
  rw [constructBody_eq, h.2 hc]
  simp [PortInv, PinEvent.allowed]

theorem portInv_of_performed {i : Instr} {s t : State} (h : PortInv s) (hp : Performed i s t) : PortInv t := by
  cases i with
  | construct clk dio =>
    obtain ⟨hc, -, rfl⟩ := hp
    exact portInv_constructBody hc h
  | bitDelay =>
    obtain ⟨hc, rfl⟩ := hp
    exact (delay_allowedEmission s).portInv hc h
  | start =>
    obtain ⟨hc, -, rfl⟩ := hp
    exact (startBody_allowedEmission s).portInv hc h
  | stop =>
    obtain ⟨hc, -, rfl⟩ := hp
    exact (stopBody_allowedEmission s).portInv hc h
  | setColon on =>
    obtain ⟨-, rfl⟩ := hp
    exact h
  | encodeDigit digit | setBrightness level on =>
    obtain ⟨-, -, rfl⟩ := hp
    exact h
  | writeByte b | cmdData | cmdDispCtrl on level | cmdAddr pos | segData b =>
    obtain ⟨hc, -, b, rfl⟩ := performed_of_sendsByte rfl hp
    exact (sendByteForHost_allowedEmission b s).portInv hc h
  | setSegments segments length pos | showNumberDec num lz length pos | clear =>
    obtain ⟨hc, -, segs, pos, v, e, rfl⟩ := performed_of_writesDisplay rfl hp
    exact (sendDisplay_allowedEmission segs pos _ { s with env := e }).portInv hc h

/-! ## What TRACE shows on the wire after each body -/

section
variable {s : State} (hc : s.constructed = true) (hl : LineInv s) (hw : WireInv s)
include hc hw

theorem WireInv.bits : s.wire.bits = [] := (hw hc).2.2.1

/-- In a frame of the engine a frame is open on the wire. -/
theorem WireInv.current_of_framed (hp : s.phase = .framed) : ∃ sent, s.wire.current = some sent :=
  Option.isSome_iff_exists.mp ((hw hc).2.2.2.mpr hp)

include hl

/-- Between frames the wire shows no level yet, or both lines high. -/
theorem WireInv.lines_of_idle (hp : s.phase = .idle) :
    (s.wire.clk = .unknown ∧ s.wire.dio = .unknown) ∨ (s.wire.clk = .driven .high ∧ s.wire.dio = .driven .high) := by
  obtain ⟨hclk, hdio, -⟩ := hw hc
  rw [hclk, hdio]
  exact (hl.idle hc hp).2

/-- In a frame the wire shows what START or the last byte left. -/
theorem WireInv.lines_of_framed (hp : s.phase = .framed) :
    (s.wire.clk = .driven .high ∧ s.wire.dio = .driven .low) ∨ (s.wire.clk = .driven .low ∧ s.wire.dio = .unknown) := by
  obtain ⟨hclk, hdio, -⟩ := hw hc
  rw [hclk, hdio]
  exact (hl.framed hc hp).imp And.right And.right

/-- R85: START opens a frame on the wire. -/
theorem wire_startBody (hp : s.phase = .idle) :
    (startBody s).wire =
      { s.wire with clk := .driven .high, dio := .driven .low, current := some [], bits := [] } := by
  obtain ⟨hdir, -⟩ := hl.idle hc hp
  have hsee := see_startEvents (hl.pins_ne hc) (hw.lines_of_idle hc hl hp)
  simpa [startBody_eq, State.wire, wireView_append, State.released, hdir] using hsee

/-- R92: STOP closes the open frame on the wire. -/
theorem wire_stopBody {sent : List Byte} (hp : s.phase = .framed) (hs : s.wire.current = some sent) :
    (stopBody s).wire =
      { clk := .driven .high, dio := .driven .high, current := none, bits := [], closed := s.frames ++ [sent] } := by
  have hsee := see_stopEvents (released := s.released) (hl.pins_ne hc) hs (hw.bits hc)
    (hw.lines_of_framed hc hl hp)
  rw [stopBody_eq, State.wire, wireView_append]
  exact hsee

/-- R42, R87: a byte sent in a frame is added whole to the open frame on the wire. -/
theorem wire_sendByteForHost {sent : List Byte} (b : Byte) (hs : s.wire.current = some sent) :
    (sendByteForHost b s).wire =
      { s.wire with clk := .driven .low, dio := .unknown, current := some (sent ++ [b]), bits := [] } := by
  rw [sendByteForHost_eq, State.wire, wireView_append]
  exact see_byteEvents (hl.pins_ne hc) hs (hw.bits hc)

/-- R72, R134, R135: a display write on an idle bus shows its three frames, closed, on the wire. -/
theorem wire_sendDisplay (segs : List Byte) (pos : Nat) (v : Byte) (hp : s.phase = .idle) :
    (sendDisplay segs pos (controlByte v) s).wire =
      { clk := .driven .high, dio := .driven .high, current := none, bits := [],
        closed := s.frames ++ displayFrames pos segs v } := by
  obtain ⟨hdir, -⟩ := hl.idle hc hp
  rw [sendDisplay_eq segs pos v s hdir, State.wire, wireView_append]
  refine see_framesEvents (hl.pins_ne hc) (hw.lines_of_idle hc hl hp) (by simp [displayFrames])
    (by simp [displayFrames]) ?_
  simp [drawAcks_length, displayFrames]
  omega

/-! ## Each body keeps the wire invariant -/

theorem wireInv_startBody (hp : s.phase = .idle) : WireInv (startBody s) := by
  intro _
  rw [wire_startBody hc hl hw hp, startBody_eq]
  simp

theorem wireInv_stopBody (hp : s.phase = .framed) : WireInv (stopBody s) := by
  intro _
  obtain ⟨sent, hs⟩ := hw.current_of_framed hc hp
  rw [wire_stopBody hc hl hw hp hs, stopBody_eq]
  simp

theorem wireInv_sendByteForHost (b : Byte) (hp : s.phase = .framed) : WireInv (sendByteForHost b s) := by
  intro _
  obtain ⟨sent, hs⟩ := hw.current_of_framed hc hp
  rw [wire_sendByteForHost hc hl hw b hs, sendByteForHost_eq]
  simp [hp]

theorem wireInv_sendDisplay (segs : List Byte) (pos : Nat) (v : Byte) (hp : s.phase = .idle) :
    WireInv (sendDisplay segs pos (controlByte v) s) := by
  intro _
  obtain ⟨hdir, -⟩ := hl.idle hc hp
  rw [wire_sendDisplay hc hl hw segs pos v hp, sendDisplay_eq segs pos v s hdir]
  simp

end

/-- R184: CONSTRUCT's two events show no level and no condition. -/
theorem wireInv_constructBody {clk dio : PinId} {s : State} (ht : s.trace = []) : WireInv (constructBody clk dio s) := by
  intro _
  rw [constructBody_eq, ht]
  simp [State.wire, wireView, WireView.see, WireView.blank]

theorem wireInv_delay {s : State} (h : WireInv s) : WireInv (delay s) := by
  have hwire : (delay s).wire = s.wire := by simp [delay_eq, State.wire, wireView_append, WireView.see]
  unfold WireInv
  rw [hwire]
  exact h

/-! ## Every operation keeps it -/

theorem wireInv_takeStop {s : State} (k : Stop) (op : Opsel) (h : WireInv s) : WireInv (takeStop k op s) := by
  rcases takeStop_cases k op s with ⟨f, ht⟩ | ⟨r, ht⟩ <;> rw [ht] <;> exact h

theorem wireInv_of_performed {i : Instr} {s t : State} (hl : LineInv s) (h : WireInv s) (hport : PortInv s)
    (hp : Performed i s t) : WireInv t := by
  cases i with
  | construct clk dio =>
    obtain ⟨hc, -, rfl⟩ := hp
    exact wireInv_constructBody (hport.2 hc)
  | bitDelay =>
    obtain ⟨-, rfl⟩ := hp
    exact wireInv_delay h
  | start =>
    obtain ⟨hc, hi, rfl⟩ := hp
    exact wireInv_startBody hc hl h hi
  | stop =>
    obtain ⟨hc, hf, rfl⟩ := hp
    exact wireInv_stopBody hc hl h hf
  | setColon on =>
    obtain ⟨-, rfl⟩ := hp
    exact h
  | encodeDigit digit | setBrightness level on =>
    obtain ⟨-, -, rfl⟩ := hp
    exact h
  | writeByte b | cmdData | cmdDispCtrl on level | cmdAddr pos | segData b =>
    obtain ⟨hc, hf, b, rfl⟩ := performed_of_sendsByte rfl hp
    exact wireInv_sendByteForHost hc hl h b hf
  | setSegments segments length pos | showNumberDec num lz length pos | clear =>
    obtain ⟨hc, hi, segs, pos, v, e, rfl⟩ := performed_of_writesDisplay rfl hp
    exact wireInv_sendDisplay (s := { s with env := e }) hc hl h segs pos v hi

/-- Settles O34: of the three invariants together, none looks at the host's list, and stops and performed operations keep
each; the wire invariant rests on the lines of the line invariant and on the empty TRACE before CONSTRUCT. -/
theorem everyStepKeepsTheWireInvariant : Obligations.EveryStepKeepsTheWireInvariant :=
  fun _ _ hi h => step_keeps (Inv := fun s => LineInv s ∧ WireInv s ∧ PortInv s) (fun _ _ hi => hi)
    (fun _ k op _ ⟨hl, hw, hp⟩ => ⟨lineInv_takeStop k op hl, wireInv_takeStop k op hw, portInv_takeStop k op hp⟩)
    (fun _ _ _ _ ⟨hl, hw, hp⟩ h =>
      ⟨lineInv_of_performed hl h, wireInv_of_performed hl hw hp h, portInv_of_performed hp h⟩) h hi

end Sys2Proof.Machine
end

section
/-! PROOFS. Which registers each operation writes (R20 to R35), that TRACE and the results only grow (R27), and the register
invariant (R23, R33, R165). -/

namespace Sys2Proof.Machine

/-! ## TRACE and the results -/

theorem prefixes_of_performed {i : Instr} {s t : State} (h : Performed i s t) :
    s.trace <+: t.trace ∧ s.results <+: t.results := by
  cases i with
  | construct clk dio =>
    obtain ⟨-, -, rfl⟩ := h
    rw [constructBody_eq]
    simp
  | _ =>
    have hu := performed_untouched (by simp) h
    exact ⟨hu.trace, hu.results⟩

/-- Settles O30: a performed operation appends, and a stop writes neither list. -/
theorem traceOnlyGrows : Obligations.TraceOnlyGrows := by
  intro i s t h
  obtain ⟨-, hp | ⟨k, rfl⟩⟩ := exec_next h
  · exact prefixes_of_performed hp
  · rcases takeStop_cases k i.opsel s with ⟨f, ht⟩ | ⟨r, ht⟩ <;> simp [ht]

/-! ## The registers of a performed operation -/

/-- The "State written" lines of the operation rules, for the fields that `Untouched` does not hold fixed. -/
structure WritesOnlyItsOwn (i : Instr) (s t : State) : Prop where
  bright : (∀ clk dio, i ≠ .construct clk dio) → (∀ level on, i ≠ .setBrightness level on) → t.bright = s.bright
  colon : (∀ clk dio, i ≠ .construct clk dio) → (∀ on, i ≠ .setColon on) → t.colon = s.colon
  phase : movesPhase i = false → t.phase = s.phase
  lines : writesLines i = false → t.dioDir = s.dioDir ∧ t.clkLvl = s.clkLvl ∧ t.dioLvl = s.dioLvl
  trace : writesLines i = false → i ≠ .bitDelay → t.trace = s.trace
  results : sendsByte i = false → (∀ digit, i ≠ .encodeDigit digit) → t.results = s.results
  env : sendsByte i = false → writesDisplay i = false → t.env = s.env

theorem sendByteForHost_writesOnlyItsOwn {i : Instr} (hi : sendsByte i = true) (b : Byte) (s : State) :
    WritesOnlyItsOwn i s (sendByteForHost b s) := by
  rw [sendByteForHost_eq]
  constructor <;> simp [writesLines, hi]

theorem sendDisplay_writesOnlyItsOwn {i : Instr} {s : State} (hi : writesDisplay i = true) (hp : s.phase = .idle)
    (segs : List Byte) (pos : Nat) (ctrl : Byte) (e : Env) :
    WritesOnlyItsOwn i s (sendDisplay segs pos ctrl { s with env := e }) := by
  obtain ⟨new, e', ht⟩ := sendDisplay_transmits segs pos ctrl { s with env := e }
  rw [ht]
  constructor <;> simp [writesLines, hi, hp]

theorem performed_writesOnlyItsOwn {i : Instr} {s t : State} (h : Performed i s t) : WritesOnlyItsOwn i s t := by
  cases i with
  | construct clk dio =>
    obtain ⟨-, -, rfl⟩ := h
    rw [constructBody_eq]
    constructor <;> simp [movesPhase, writesLines]
  | start =>
    obtain ⟨-, -, rfl⟩ := h
    rw [startBody_eq]
    constructor <;> simp [movesPhase, writesLines]
  | stop =>
    obtain ⟨-, -, rfl⟩ := h
    rw [stopBody_eq]
    constructor <;> simp [movesPhase, writesLines]
  | bitDelay | setColon on =>
    obtain ⟨-, rfl⟩ := h
    constructor <;> simp [delay_eq]
  | encodeDigit digit | setBrightness level on =>
    obtain ⟨-, -, rfl⟩ := h
    constructor <;> simp [giveResult]
  | writeByte b | cmdData | cmdDispCtrl on level | cmdAddr pos | segData b =>
    obtain ⟨-, -, b, rfl⟩ := performed_of_sendsByte rfl h
    exact sendByteForHost_writesOnlyItsOwn rfl b s
  | setSegments segments length pos | showNumberDec num lz length pos | clear =>
    obtain ⟨-, hp, segs, pos, v, e, rfl⟩ := performed_of_writesDisplay rfl h
    exact sendDisplay_writesOnlyItsOwn rfl hp segs pos _ e

/-- R35, R21: no operation writes the configuration or the host's list. -/
theorem cfg_prog_of_performed {i : Instr} {s t : State} (h : Performed i s t) : t.cfg = s.cfg ∧ t.prog = s.prog := by
  cases i with
  | construct clk dio =>
    obtain ⟨-, -, rfl⟩ := h
    rw [constructBody_eq]
    exact ⟨rfl, rfl⟩
  | _ =>
    have hu := performed_untouched (by simp) h
    exact ⟨hu.cfg, hu.prog⟩

/-- Settles O31: a performed operation writes only what its rule names and leaves the engine running; a stop writes FAULT
or REFUSED alone. -/
theorem registersAreWrittenOnlyByTheirOperations : Obligations.RegistersAreWrittenOnlyByTheirOperations := by
  intro i s t h
  obtain ⟨hr, hp | ⟨k, rfl⟩⟩ := exec_next h
  · obtain ⟨hbright, hcolon, hphase, hlines, htrace, hresults, henv⟩ := performed_writesOnlyItsOwn hp
    obtain ⟨hcfg, hprog⟩ := cfg_prog_of_performed hp
    obtain ⟨hfault, hrefused⟩ := performed_running hr hp
    refine ⟨hcfg, hprog, fun hi => ?_, hphase, hlines, htrace, .inl ⟨hfault.trans hr.1.symm, hrefused.trans hr.2.symm⟩,
      hresults, henv⟩
    have hu := performed_untouched hi hp
    exact ⟨hu.constructed, hu.clkPin, hu.dioPin, hu.clkDir, hbright hi, hcolon hi⟩
  · rcases takeStop_cases k i.opsel s with ⟨f, ht⟩ | ⟨r, ht⟩ <;> simp [ht]

/-! ## The register invariant -/

/-- R131: only `level & 0x07` and the display-on bit 3 reach BRIGHT. -/
theorem brightByte_high_bits (level : Int) (on : Bool) : brightByte level on &&& 0xF0 = 0 := by
  have hmask : ∀ (b : Byte) (on : Bool), ((b &&& 0x07) ||| if on then 0x08 else 0x00) &&& 0xF0 = 0 := by decide
  exact hmask (toByte level) on

/-- The invariant looks at no register but BRIGHT, COLON, FAULT and REFUSED. -/
theorem RegisterInv.of_same_registers {s t : State} (h : RegisterInv s) (hr : t.running)
    (hc : t.constructed = s.constructed) (hcfg : t.cfg = s.cfg) (hb : t.bright = s.bright) (hcol : t.colon = s.colon) :
    RegisterInv t := by
  refine ⟨?_, .inl hr.1⟩
  rw [hc, hcfg, hb, hcol]
  exact h.1

/-- R33: CONSTRUCT gives BRIGHT and COLON what their parameters say. -/
theorem registerInv_constructBody (clk dio : PinId) (s : State) : RegisterInv (constructBody clk dio s) := by
  rw [constructBody_eq]
  refine ⟨fun _ => ⟨?_, ?_⟩, .inl rfl⟩
  · cases s.cfg.brightReset <;> simp [resetRegister]
  · cases s.cfg.colonReset <;> simp [resetRegister]

/-- R165: a running engine that stops reports exactly one fault or refusal. -/
theorem registerInv_takeStop {s : State} (k : Stop) (op : Opsel) (hr : s.running) (h : RegisterInv s) :
    RegisterInv (takeStop k op s) := by
  rcases takeStop_cases k op s with ⟨f, ht⟩ | ⟨r, ht⟩
  · rw [ht]
    exact ⟨h.1, .inr hr.2⟩
  · rw [ht]
    exact ⟨h.1, .inl hr.1⟩

theorem registerInv_of_performed {i : Instr} {s t : State} (hr : s.running) (h : RegisterInv s) (hp : Performed i s t) :
    RegisterInv t := by
  cases i with
  | construct clk dio =>
    obtain ⟨-, -, rfl⟩ := hp
    exact registerInv_constructBody clk dio s
  | setBrightness level on =>
    obtain ⟨hc, -, rfl⟩ := hp
    exact ⟨fun _ => ⟨.inl (brightByte_high_bits level on), (h.1 hc).2⟩, .inl hr.1⟩
  | setColon on =>
    obtain ⟨hc, rfl⟩ := hp
    exact ⟨fun _ => ⟨(h.1 hc).1, trivial⟩, .inl hr.1⟩
  | _ =>
    have hu := performed_untouched (by simp) hp
    have hw := performed_writesOnlyItsOwn hp
    exact h.of_same_registers (performed_running hr hp) hu.constructed hu.cfg
      (hw.bright (by simp) (by simp)) (hw.colon (by simp) (by simp))

/-- Settles O36: the invariant does not look at the host's list; a stop of a running engine sets one record, and of the
performed operations only CONSTRUCT, SET_BRIGHTNESS and SET_COLON write BRIGHT or COLON. -/
theorem everyStepKeepsTheRegisterInvariant : Obligations.EveryStepKeepsTheRegisterInvariant :=
  fun _ _ hi h => step_keeps (fun _ _ hi => hi) (fun _ k op => registerInv_takeStop k op)
    (fun _ _ _ => registerInv_of_performed) h hi

end Sys2Proof.Machine
end

section
/-! PROOFS. The machine after reset and before CONSTRUCT (R33, R180, R182). -/

namespace Sys2Proof.Machine

/-- R180: the reset state is what the body of CONSTRUCT makes of the unmade engine (logs 1, 2). -/
theorem reset_eq_constructBody : State.reset = constructBody ⟨2⟩ ⟨3⟩ (State.unconstructed Config.default) := rfl

/-- An unmade engine passes both checks of CONSTRUCT if the pins differ. -/
theorem exec_construct_of_unmade {s : State} {clk dio : PinId} (hr : s.running) (hc : s.constructed = false)
    (hne : clk ≠ dio) : exec (.construct clk dio) s = .next (constructBody clk dio s) := by
  simp [exec, execConstruct, unlessStopped_running hr, hc, bne_iff_ne.mpr hne]

/-- Settles O2: the pins differ, so CONSTRUCT is performed, and its body leaves State.reset. -/
theorem resetStateIsConstructTwoThree : Obligations.ResetStateIsConstructTwoThree :=
  ⟨exec_construct_of_unmade ⟨rfl, rfl⟩ rfl (by decide), rfl, rfl, rfl, rfl, rfl, rfl, rfl, rfl, rfl, rfl⟩

theorem portInv_unconstructed (cfg : Config) : PortInv (State.unconstructed cfg) := ⟨nofun, fun _ => rfl⟩

/-- Settles O37: an unmade engine meets each invariant because nothing is asked of its lines and its TRACE is empty; the
reset state meets them as what CONSTRUCT leaves. -/
theorem resetMeetsTheInvariants : Obligations.ResetMeetsTheInvariants := by
  refine ⟨?_, fun cfg => ⟨nofun, nofun, portInv_unconstructed cfg, nofun, .inl rfl⟩⟩
  rw [reset_eq_constructBody]
  exact ⟨lineInv_constructBody (by decide), wireInv_constructBody rfl,
    portInv_constructBody rfl (portInv_unconstructed _), registerInv_constructBody _ _ _⟩

end Sys2Proof.Machine
end

section
/-! PROOFS. The display writes on operands in their domains (R134, R140, R145), and BRIGHT drawn afresh by each (R33). -/

namespace Sys2Proof.Machine

/-! ## Operands in their domains pass the engine's checks -/

theorem isByteValue_eq_isByte (n : Int) : isByteValue n = isByte n := by
  rw [Bool.eq_iff_iff]
  simp only [isByteValue, isByte, Bool.and_eq_true, decide_eq_true_eq]
  omega

theorem checks_of_placeOk {length pos : Int} (h : Instr.placeOk length pos = true) :
    isPosition pos = true ∧ fitsDisplay length pos = true := by
  simp only [Instr.placeOk, Bool.and_eq_true, decide_eq_true_eq] at h
  simp only [isPosition, fitsDisplay, decide_eq_true_eq]
  omega

theorem setSegments_checks {segments : List Int} {length pos : Int}
    (h : (Instr.setSegments segments length pos).wellFormed = true) :
    isSegmentsLength length = true ∧ isPosition pos = true ∧ fitsDisplay length pos = true ∧
      segmentsOk segments length = true := by
  simp only [Instr.wellFormed, Bool.and_eq_true, decide_eq_true_eq, funext isByteValue_eq_isByte] at h
  obtain ⟨⟨⟨⟨h0, h4⟩, hplace⟩, hlen⟩, hbytes⟩ := h
  obtain ⟨hpos, hfits⟩ := checks_of_placeOk hplace
  exact ⟨by simp [isSegmentsLength, h0, h4], hpos, hfits, by simp [segmentsOk, hlen, hbytes]⟩

theorem showNumberDec_checks {num : Int} {lz : Bool} {length pos : Int}
    (h : (Instr.showNumberDec num lz length pos).wellFormed = true) :
    isDecimalLength length = true ∧ isPosition pos = true ∧ fitsDisplay length pos = true ∧
      numFits num length = true := by
  simp only [Instr.wellFormed, Bool.and_eq_true, decide_eq_true_eq] at h
  obtain ⟨⟨⟨⟨h1, h4⟩, hplace⟩, hnum0⟩, hnum⟩ := h
  obtain ⟨hpos, hfits⟩ := checks_of_placeOk hplace
  exact ⟨by simp [isDecimalLength, h1, h4], hpos, hfits, by simp [numFits, hnum0, hnum]⟩

/-! ## A display write that is performed -/

section
variable {s : State} (hr : s.ready) (hp : s.phase = .idle)
include hr hp

theorem exec_setSegments_of_wellFormed {segments : List Int} {length pos : Int} {v : Byte} {e : Env}
    (hwf : (Instr.setSegments segments length pos).wellFormed = true) (hv : BrightReadsAs s v e) :
    exec (.setSegments segments length pos) s =
      .next (sendDisplay (segmentBytes segments length) pos.toNat (controlByte v) { s with env := e }) := by
  obtain ⟨hlen, hpos, hfits, hsegs⟩ := setSegments_checks hwf
  simp [exec, execSetSegments, perform_ready hr, hlen, hpos, hfits, hsegs, decide_eq_true hp, displayWrite_of_reads hv]

theorem exec_showNumberDec_of_wellFormed {num : Int} {lz : Bool} {length pos : Int} {c : Bool} {e : Env} {v : Byte}
    {e' : Env} (hwf : (Instr.showNumberDec num lz length pos).wellFormed = true) (hc : ColonReadsAs s c e)
    (hv : BrightReadsAs { s with env := e } v e') :
    exec (.showNumberDec num lz length pos) s =
      .next (sendDisplay (applyColon c pos.toNat (decSegments s.cfg.segTable num.toNat lz length.toNat)) pos.toNat
        (controlByte v) { s with env := e' }) := by
  obtain ⟨hlen, hpos, hfits, hnum⟩ := showNumberDec_checks hwf
  simp [exec, execShowNumberDec, perform_ready hr, hlen, hpos, hfits, hnum, decide_eq_true hp, readColon_of_reads hc,
    displayWrite_of_reads hv]

theorem exec_clear_of_idle {v : Byte} {e : Env} (hv : BrightReadsAs s v e) :
    exec .clear s = .next (sendDisplay [0x00, 0x00, 0x00, 0x00] 0 (controlByte v) { s with env := e }) := by
  simp [exec, execClear, perform_ready hr, decide_eq_true hp, displayWrite_of_reads hv]

end

/-! ## The environment's draws -/

/-- A read of COLON takes nothing from the answers for BRIGHT. -/
theorem exists_colonReadsAs {s : State} (h : s.colon ≠ .noValue) :
    ∃ c e, ColonReadsAs s c e ∧ e.brights = s.env.brights := by
  cases hcol : s.colon with
  | noValue => exact absurd hcol h
  | held c => exact ⟨c, s.env, .inl ⟨hcol, rfl⟩, rfl⟩
  | drawn =>
    refine ⟨_, _, .inr ⟨hcol, rfl, rfl⟩, ?_⟩
    unfold Env.drawColon
    split <;> rfl

/-- A drawn BRIGHT reads as the environment's next answer for it, which the read takes. -/
theorem brightReadsAs_of_drawn {s : State} {v : Byte} {rest : List Byte} (hb : s.bright = .drawn)
    (he : s.env.brights = v :: rest) : BrightReadsAs s v { s.env with brights := rest } := by
  have hdraw : s.env.drawBright = (v, { s.env with brights := rest }) := by simp [Env.drawBright, he]
  exact .inr ⟨hb, by rw [hdraw], by rw [hdraw]⟩

/-- An acknowledgement sample takes nothing from the answers for BRIGHT. -/
theorem drawAck_brights (e : Env) : e.drawAck.2.brights = e.brights := by
  unfold Env.drawAck
  split <;> rfl

theorem drawAcks_brights (n : Nat) (e : Env) : (drawAcks n e).2.brights = e.brights := by
  induction n generalizing e with
  | zero => rfl
  | succ n ih => exact (ih e.drawAck.2).trans (drawAck_brights e)

/-! ## One display write after another -/

/-- An idle engine whose BRIGHT is drawn, whose COLON can be read, and for whose reads of BRIGHT the environment has
these answers. -/
structure DrawsBright (s : State) (answers : List Byte) : Prop where
  ready : s.ready
  line : LineInv s
  wire : WireInv s
  idle : s.phase = .idle
  bright : s.bright = .drawn
  colon : s.colon ≠ .noValue
  answers : s.env.brights = answers

/-- A well-formed display write sends its frames with the next answer for BRIGHT and leaves the others. -/
theorem DrawsBright.exec_eq {i : Instr} {s : State} {v : Byte} {rest : List Byte} (h : DrawsBright s (v :: rest))
    (hi : writesDisplay i = true) (hwf : i.wellFormed = true) :
    ∃ segs pos e, exec i s = .next (sendDisplay segs pos (controlByte v) { s with env := e }) ∧ pos < 4 ∧
      e.brights = rest := by
  have hv := brightReadsAs_of_drawn h.bright h.answers
  cases i with
  | setSegments segments length pos =>
    obtain ⟨-, hpos, -, -⟩ := setSegments_checks hwf
    simp only [isPosition, decide_eq_true_eq] at hpos
    exact ⟨_, _, _, exec_setSegments_of_wellFormed h.ready h.idle hwf hv, by omega, rfl⟩
  | showNumberDec num lz length pos =>
    obtain ⟨-, hpos, -, -⟩ := showNumberDec_checks hwf
    simp only [isPosition, decide_eq_true_eq] at hpos
    obtain ⟨c, e, hc, he⟩ := exists_colonReadsAs h.colon
    have hv' := brightReadsAs_of_drawn (s := { s with env := e }) h.bright (he.trans h.answers)
    exact ⟨_, _, _, exec_showNumberDec_of_wellFormed h.ready h.idle hwf hc hv', by omega, rfl⟩
  | clear => exact ⟨_, _, _, exec_clear_of_idle h.ready h.idle hv, by omega, rfl⟩
  | _ => cases hi

/-- What the frames of a display write leave: the engine as it was, with the answers that the read of BRIGHT left. -/
theorem DrawsBright.sendDisplay {s : State} {answers rest : List Byte} (h : DrawsBright s answers) (segs : List Byte)
    (pos : Nat) (v : Byte) {e : Env} (he : e.brights = rest) :
    DrawsBright (sendDisplay segs pos (controlByte v) { s with env := e }) rest := by
  have hline := lineInv_sendDisplay segs pos (controlByte v) e h.line
  have hwire := wireInv_sendDisplay (s := { s with env := e }) h.ready.1 h.line h.wire segs pos v h.idle
  obtain ⟨hdir, -⟩ := h.line.idle h.ready.1 h.idle
  rw [sendDisplay_eq segs pos v { s with env := e } hdir] at hline hwire ⊢
  exact ⟨h.ready, hline, hwire, rfl, h.bright, h.colon, (drawAcks_brights _ e).trans he⟩

/-- R68: an address command's high bits do not depend on the position. -/
theorem addressByte_high_bits {pos : Nat} (h : pos < 4) : addressByte pos &&& 0xFC = 0xC0 := by
  revert pos
  decide

/-- R33, R67, R134: a display write under BRIGHT_RESET = Draw sends the next answer v as 0x80 | v after its data and
address frames, and leaves the state in which the next display write does the same with the answer after it. -/
theorem DrawsBright.display {i : Instr} {s : State} {v : Byte} {rest : List Byte} (h : DrawsBright s (v :: rest))
    (hi : writesDisplay i = true) (hwf : i.wellFormed = true) :
    ∃ t a, exec i s = .next t ∧ DrawsBright t rest ∧ a.head?.map (· &&& 0xFC) = some 0xC0 ∧
      t.frames = s.frames ++ [[0x40], a, [0x80 ||| v]] := by
  obtain ⟨segs, pos, e, hexec, hpos, he⟩ := h.exec_eq hi hwf
  have hwire := wire_sendDisplay (s := { s with env := e }) h.ready.1 h.line h.wire segs pos v h.idle
  exact ⟨_, addressByte pos :: segs, hexec, h.sendDisplay segs pos v he, congrArg some (addressByte_high_bits hpos),
    congrArg WireView.closed hwire⟩

/-- Settles O29: each of the two display writes takes one answer, and the first leaves a state that the second meets as
the first met its own. -/
theorem drawnBrightIsDrawnAfresh : Obligations.DrawnBrightIsDrawnAfresh := by
  intro i j s v w rest hi hj hwfi hwfj hr hl hw hp hb hcol he
  have hs : DrawsBright s (v :: w :: rest) := ⟨hr, hl, hw, hp, hb, hcol, he⟩
  obtain ⟨t, a, hexec, ht, ha, hframes⟩ := hs.display hi hwfi
  obtain ⟨u, b, hexec', hu, hb, hframes'⟩ := ht.display hj hwfj
  exact ⟨t, u, a, b, hexec, hexec', ht.answers, hu.answers, ha, hb, by rw [hframes', hframes, List.append_assoc]; rfl⟩

end Sys2Proof.Machine
end

section
/-! PROOFS. START, WRITE_BYTE and STOP on the wire (R42, R72, R85, R87, R92). -/

namespace Sys2Proof.Machine

/-! ## The transport operations that are performed -/

section
variable {s : State} (hr : s.ready)
include hr

theorem exec_start_of_idle (hp : s.phase = .idle) : exec .start s = .next (startBody s) := by
  simp [exec, execStart, perform_ready hr, decide_eq_true hp]

theorem exec_stop_of_framed (hp : s.phase = .framed) : exec .stop s = .next (stopBody s) := by
  simp [exec, execStop, perform_ready hr, decide_eq_true hp]

theorem exec_writeByte_of_framed {b : Int} (hb : isByte b = true) (hp : s.phase = .framed) :
    exec (.writeByte b) s = .next (sendByteForHost (toByte b) s) := by
  simp [exec, execWriteByte, perform_ready hr, hb, decide_eq_true hp]

end

/-! ## Their frames on the wire -/

/-- Settles O38: each operation is performed as its body, and its wire lemma says which frames the events show. -/
theorem transportOperationsOnTheWire : Obligations.TransportOperationsOnTheWire := by
  intro s hr hl hw
  have hc := hr.1
  refine ⟨fun hp => ?start, fun hp => ?framed⟩
  case start =>
    have hwire := wire_startBody hc hl hw hp
    exact ⟨_, exec_start_of_idle hr hp, congrArg WireView.current hwire, by simp [State.frames, hwire]⟩
  case framed =>
    obtain ⟨sent, hs⟩ := hw.current_of_framed hc hp
    refine ⟨sent, hs, fun b h0 h255 => ?writeByte, ?stop⟩
    case writeByte =>
      have hb : isByte b = true := decide_eq_true ⟨h0, h255⟩
      have hwire := wire_sendByteForHost hc hl hw (toByte b) hs
      exact ⟨_, exec_writeByte_of_framed hr hb hp, congrArg WireView.current hwire, by simp [State.frames, hwire]⟩
    case stop =>
      have hwire := wire_stopBody hc hl hw hp hs
      exact ⟨_, exec_stop_of_framed hr hp, congrArg WireView.current hwire, by simp [State.frames, hwire]⟩

end Sys2Proof.Machine
end

section
/-! PROOFS. The decoder inverts the encoder at both levels (R60, R61, R64, R66 to R70). -/

namespace Sys2Proof

/-! ## Selectors and operands -/

/-- R61, R63: a selector spells the operation whose selector it is, and no other. -/
theorem opcodeOf?_eq_some_iff {sel : Opsel} {c : HostOpcode} : opcodeOf? sel = some c ↔ sel = c.opsel := by
  constructor
  · intro h
    have hrows : ∀ row ∈ selectorTable, row.1 = row.2.opsel := by decide
    obtain ⟨row, hfind, rfl⟩ := Option.map_eq_some_iff.mp h
    have hsel : row.1 = sel := by simpa using List.find?_some hfind
    exact hsel.symm.trans (hrows row (List.mem_of_find?_eq_some hfind))
  · rintro rfl
    cases c <;> rfl

theorem opcodeOf?_eq_none_iff {sel : Opsel} : opcodeOf? sel = none ↔ ∀ c : HostOpcode, sel ≠ c.opsel := by
  simp only [Option.eq_none_iff_forall_ne_some, ne_eq, opcodeOf?_eq_some_iff]

/-- R61, R64: the operands an operation takes are those its instruction is encoded with, or the level of SET_BRIGHTNESS
alone. -/
theorem encode_of_assemble {c : HostOpcode} {operands : List Operand} {i : Instr} (h : assemble c operands = some i) :
    encode i = .op ⟨c.opsel, operands⟩ ∨
      ∃ level, c = .setBrightness ∧ operands = [.int level] ∧ i = .setBrightness level true := by
  unfold assemble at h
  split at h <;> cases h
  -- the row of `assemble` for the omitted `on` operand
  case h_7 level => exact .inr ⟨level, rfl, rfl, rfl⟩
  all_goals exact .inl rfl

theorem decodeHostOp_eq_ok {o : HostOp} {i : Instr} (h : decodeHostOp o = .ok i) :
    ∃ c, o.opsel = c.opsel ∧ assemble c o.operands = some i := by
  unfold decodeHostOp at h
  split at h
  next => cases h
  next c hc =>
    split at h
    next j hj =>
      cases h
      exact ⟨c, opcodeOf?_eq_some_iff.mp hc, hj⟩
    next => cases h

/-- R63, R165 (2): a selector that no operation has is rejected whatever the operands are. -/
theorem decode_op_of_reserved {o : HostOp} (h : ∀ c : HostOpcode, o.opsel ≠ c.opsel) :
    decode (.op o) = .error (.reservedSelector o.opsel) := by
  simp [decode, decodeHostOp, opcodeOf?_eq_none_iff.mpr h]

/-! ## Wire bytes -/

@[simp] theorem decodeCommand_dispCtrlCommand (on : Bool) (level : BitVec 3) :
    decodeCommand (dispCtrlCommand on level) = some (.cmdDispCtrl on level) := by
  revert on level
  decide

@[simp] theorem decodeCommand_addrCommand (pos : BitVec 2) :
    decodeCommand (addrCommand pos) = some (.cmdAddr pos) := by
  revert pos
  decide

/-- R67: the fixed bits and the fields of a display-control command make up its byte. -/
theorem dispCtrlCommand_of_pattern {b : Byte} (h : b &&& 0xF0 = 0x80) :
    dispCtrlCommand (b.getLsbD 3) (b.extractLsb' 0 3) = b := by
  revert b
  decide

/-- R68: the fixed bits and the position of an address command make up its byte. -/
theorem addrCommand_of_pattern {b : Byte} (h : b &&& 0xFC = 0xC0) : addrCommand (b.extractLsb' 0 2) = b := by
  revert b
  decide

/-- R66: the data command fixes every bit. -/
theorem eq_dataCommand_of_pattern {b : Byte} (h : b &&& 0xFF = 0x40) : b = dataCommand := by
  revert b
  decide

theorem encode_of_decodeCommand {b : Byte} {i : Instr} (h : decodeCommand b = some i) :
    encode i = .wire .command b := by
  unfold decodeCommand at h
  split at h
  next hdata =>
    cases h
    rw [eq_dataCommand_of_pattern hdata, encode]
  next =>
    split at h
    next hctrl =>
      cases h
      rw [encode, dispCtrlCommand_of_pattern hctrl]
    next =>
      split at h
      next haddr =>
        cases h
        rw [encode, addrCommand_of_pattern haddr]
      next => cases h

theorem encode_of_decodeWire {role : WireRole} {b : Byte} {i : Instr} (h : decodeWire role b = .ok i) :
    encode i = .wire role b := by
  cases role with
  | segment =>
    cases h
    rfl
  | command =>
    simp only [decodeWire] at h
    split at h
    next j hj =>
      cases h
      exact encode_of_decodeCommand hj
    next => cases h

/-! ## Both levels -/

theorem decode_encode (i : Instr) : decode (encode i) = .ok i := by
  cases i with
  | cmdDispCtrl on level => simp [encode, decode, decodeWire]
  | cmdAddr pos => simp [encode, decode, decodeWire]
  | _ => rfl

theorem encode_of_decode {slot : Slot} {i : Instr} (h : decode slot = .ok i) :
    slot = encode i ∨ ∃ level, i = .setBrightness level true ∧ slot = .op ⟨0x20, [.int level]⟩ := by
  cases slot with
  | wire role b => exact .inl (encode_of_decodeWire h).symm
  | op o =>
    obtain ⟨sel, operands⟩ := o
    obtain ⟨c, rfl, ha⟩ := decodeHostOp_eq_ok h
    rcases encode_of_assemble ha with he | ⟨level, rfl, rfl, rfl⟩
    · exact .inl he.symm
    · exact .inr ⟨level, rfl, rfl⟩

/-- Settles O13: an instruction's words decode to it, and a slot that decodes is a wire byte made up of its command's
fields, or a record whose selector is its operation's and whose operands are that operation's. -/
theorem decodeInvertsEncode : Obligations.DecodeInvertsEncode := ⟨decode_encode, fun _ _ => encode_of_decode⟩

/-- Settles O12: nine of the words are what the encoder makes of their instructions; SET_BRIGHTNESS stands with its `on`
operand omitted (R64). -/
theorem wordsDecodeAsTheSpecLaysThemOut : Obligations.WordsDecodeAsTheSpecLaysThemOut :=
  ⟨decode_encode (.construct ⟨2⟩ ⟨3⟩), decode_encode .start, decode_encode (.writeByte 0x40),
    decode_encode (.encodeDigit 4), rfl, decode_encode (.showNumberDec 42 false 4 0), decode_encode .cmdData,
    decode_encode (.cmdDispCtrl true 5), decode_encode (.cmdAddr 2), decode_encode (.segData 0xED)⟩

end Sys2Proof
end

section
/-! PROOFS. Reserved selectors (R63), and where the step of a running engine stops (R165, R191). -/

namespace Sys2Proof.Machine

/-! ## Every operation of a running engine has a next state -/

theorem settle_exists_next (op : Opsel) (s : State) (c : Course) : ∃ t, settle op s c = .next t := by
  cases c with
  | ok t => exact ⟨t, rfl⟩
  | error k => exact ⟨_, rfl⟩

theorem perform_exists_next {s : State} (hr : s.running) (op : Opsel) (c : Course) :
    ∃ t, perform op s c = .next t := by
  rw [perform, unlessStopped_running hr]
  exact settle_exists_next op s _

theorem exec_exists_next {s : State} (hr : s.running) (i : Instr) : ∃ t, exec i s = .next t := by
  cases i with
  | construct clk dio =>
    rw [exec, execConstruct, unlessStopped_running hr]
    exact settle_exists_next 0x00 s _
  | _ => exact perform_exists_next hr _ _

/-! ## The step where no operation is performed -/

theorem step_of_prog_nil {s : State} (hr : s.running) (hp : s.prog = []) : step s = .refused .programEnded := by
  simp [step, unlessStopped_running hr, hp]

section
variable {s : State} {slot : Slot} {rest : List Slot} (hr : s.running) (hp : s.prog = slot :: rest)
include hr hp

theorem step_of_decode_reserved {op : Opsel} (hd : decode slot = .error (.reservedSelector op)) :
    step s = .next (refuse .opsel op { s with prog := rest }) := by
  simp [step, unlessStopped_running hr, hp, hd]

theorem step_of_decode_illTyped {op : Opsel} (hd : decode slot = .error (.illTypedOperands op)) :
    step s = .refused (.illTypedOperands op) := by
  simp [step, unlessStopped_running hr, hp, hd]

theorem step_of_decode_notACommand {b : Byte} (hd : decode slot = .error (.notACommand b)) :
    step s = .refused (.notACommand b) := by
  simp [step, unlessStopped_running hr, hp, hd]

end

/-- Settles O8: no operation of R61's table has its selector in R63's ranges, so the selector is rejected before the
operands are looked at. -/
theorem reservedSelectorsAreRefused : Obligations.ReservedSelectorsAreRefused := by
  intro s o rest hr hp hres
  have hnone : ∀ c : HostOpcode, o.opsel ≠ c.opsel := by
    intro c hsel
    rw [hsel] at hres
    revert hres
    cases c <;> decide
  exact step_of_decode_reserved hr hp (decode_op_of_reserved hnone)

/-- Settles O10: by what the host's list begins with. A slot that decodes is performed and a reserved selector is
recorded, each with a next state; the three other cases are the refusals. -/
theorem stepStopsOnlyWhereTheHostOffersNoOperation : Obligations.StepStopsOnlyWhereTheHostOffersNoOperation := by
  intro s hr
  cases hp : s.prog with
  | nil => simp [step_of_prog_nil hr hp, eq_comm]
  | cons slot rest =>
    cases hd : decode slot with
    | ok i =>
      obtain ⟨t, ht⟩ := exec_exists_next (s := { s with prog := rest }) hr i
      simp [step_of_decode_ok hr hp hd, ht, hd]
    | error k =>
      cases k with
      | reservedSelector op => simp [step_of_decode_reserved hr hp hd, hd]
      | illTypedOperands op => simp [step_of_decode_illTyped hr hp hd, hd, eq_comm]
      | notACommand b => simp [step_of_decode_notACommand hr hp hd, hd, eq_comm]

end Sys2Proof.Machine
end

section
/-! PROOFS. The wire bytes as WRITE_BYTE sends them (R66 to R68, R70, R73, R87). -/

namespace Sys2Proof.Machine

/-! ## The byte a command's encoding lays out -/

theorem dispCtrlCommand_eq_ofNat (on : Bool) (level : BitVec 3) :
    dispCtrlCommand on level = BitVec.ofNat 8 (0x80 + (if on then 0x08 else 0) + level.toNat) := by
  revert on level
  decide

theorem addrCommand_eq_ofNat (pos : BitVec 2) : addrCommand pos = BitVec.ofNat 8 (0xC0 + pos.toNat) := by
  revert pos
  decide

/-- R73: a wire byte's instruction transmits the byte its encoding lays out. -/
theorem exec_eq_transmit {i : Instr} {b : Byte} (h : wireByteOf i = some b) (s : State) : exec i s = transmit b s := by
  cases i with
  | cmdData | segData b =>
    cases h
    rfl
  | cmdDispCtrl on level =>
    cases h
    rw [← dispCtrlCommand_eq_ofNat, exec, execCmdDispCtrl]
  | cmdAddr pos =>
    cases h
    rw [← addrCommand_eq_ofNat, exec, execCmdAddr]
  | _ => cases h

/-! ## Its transmission in a frame -/

theorem transmit_of_framed {s : State} (hr : s.ready) (hp : s.phase = .framed) (b : Byte) :
    transmit b s = .next (sendByteForHost b s) := by
  simp [transmit, perform_ready hr, decide_eq_true hp]

/-- R62, R87: every byte, taken as an integer, is in WRITE_BYTE's domain. -/
theorem isByte_toNat (b : Byte) : isByte b.toNat = true := by
  have hlt := b.isLt
  simp only [isByte, decide_eq_true_eq]
  omega

@[simp] theorem toByte_toNat (b : Byte) : toByte b.toNat = b := by simp [toByte]

theorem exec_writeByte_toNat {s : State} (hr : s.ready) (hp : s.phase = .framed) (b : Byte) :
    exec (.writeByte b.toNat) s = .next (sendByteForHost b s) := by
  rw [exec_writeByte_of_framed hr (isByte_toNat b) hp, toByte_toNat]

/-- Settles O18: in a frame a wire byte and WRITE_BYTE of that byte both leave what sending it for the host leaves. -/
theorem wireBytesAreSentByWriteByte : Obligations.WireBytesAreSentByWriteByte := by
  intro i b s hb hr hp
  have hexec : exec i s = .next (sendByteForHost b s) := (exec_eq_transmit hb s).trans (transmit_of_framed hr hp b)
  refine ⟨?_, hexec.trans (exec_writeByte_toNat hr hp b).symm⟩
  rw [hexec, sendByteForHost_eq]
  rfl

end Sys2Proof.Machine
end

section
/-! PROOFS. SET_SEGMENTS on the wire (R72, R134, R135, R137). -/

namespace Sys2Proof.Machine

/-- R68: on the display, setting a position's bits in the address command is adding it. -/
theorem addressByte_eq_ofInt {pos : Int} (h : isPosition pos = true) :
    addressByte pos.toNat = BitVec.ofInt 8 (0xC0 + pos) := by
  have hadd : ∀ n < 4, addressByte n = BitVec.ofInt 8 (0xC0 + (n : Int)) := by decide
  simp only [isPosition, decide_eq_true_eq] at h
  rw [hadd pos.toNat (by omega), Int.toNat_of_nonneg h.1]

/-- Settles O39: a well-formed SET_SEGMENTS on an idle bus is the display write of its bytes, whose wire lemma says
which frames the events show. -/
theorem setSegmentsOnTheWire : Obligations.SetSegmentsOnTheWire := by
  intro s segments length pos v e hr hl hw hp hv hwf
  obtain ⟨-, hpos, -, -⟩ := setSegments_checks hwf
  have hwire := wire_sendDisplay (s := { s with env := e }) hr.1 hl hw (segmentBytes segments length) pos.toNat v hp
  refine ⟨_, exec_setSegments_of_wellFormed hr hp hwf hv, congrArg WireView.current hwire, ?_⟩
  rw [← addressByte_eq_ofInt hpos]
  exact congrArg WireView.closed hwire

end Sys2Proof.Machine
end

section
/-! PROOFS. The Transport operations in the terms of their rules (R81, R84, R86, R87), what the port rule asks of every step
(R80), and that a running engine takes every operation (R82, R165, R191). -/

namespace Sys2Proof.Machine

/-! ## The phase and the direction of DIO -/

theorem phase_eq_idle_of_ne_framed {s : State} (h : s.phase ≠ .framed) : s.phase = .idle := by
  cases hp : s.phase with
  | idle => rfl
  | framed => exact absurd hp h

theorem phase_eq_framed_of_ne_idle {s : State} (h : s.phase ≠ .idle) : s.phase = .framed := by
  cases hp : s.phase with
  | idle => exact absurd hp h
  | framed => rfl

/-- R83: a drive of DIO reconfigures it exactly where it is not an output. -/
theorem reconfigureEvents_released (s : State) :
    reconfigureEvents s.dioPin s.released = if s.dioDir = .out then [] else [.cfgOut s.dioPin] := by
  by_cases h : s.dioDir = .out <;> simp [reconfigureEvents, State.released, h]

/-! ## The transport operations that their own checks stop -/

section
variable {s : State} (hr : s.ready)
include hr

theorem exec_start_of_framed (hp : s.phase = .framed) :
    exec .start s = .next { s with fault := some ⟨.framingStart, 0x02⟩ } := by
  simp [exec, execStart, perform_ready hr, hp, takeStop, raiseFault]

theorem exec_stop_of_idle (hp : s.phase = .idle) :
    exec .stop s = .next { s with fault := some ⟨.framingIdle, 0x03⟩ } := by
  simp [exec, execStop, perform_ready hr, hp, takeStop, raiseFault]

/-- The operand is looked at before the phase is. -/
theorem exec_writeByte_of_not_isByte {b : Int} (hb : isByte b = false) :
    exec (.writeByte b) s = .next { s with refused := some ⟨.byte, 0x04⟩ } := by
  simp [exec, execWriteByte, perform_ready hr, hb, takeStop, refuse]

theorem exec_writeByte_of_idle {b : Int} (hb : isByte b = true) (hp : s.phase = .idle) :
    exec (.writeByte b) s = .next { s with fault := some ⟨.framingIdle, 0x04⟩ } := by
  simp [exec, execWriteByte, perform_ready hr, hb, hp, takeStop, raiseFault]

end

/-! ## Their courses -/

/-- Settles O14: BIT_DELAY has no check of its own, and its course is one DELAY. -/
theorem bitDelayEmitsOneDelay : Obligations.BitDelayEmitsOneDelay := by
  intro s hr
  rw [exec, execBitDelay, perform_ready hr, settle_ok, delay_eq]

/-- Settles O15: by the phase; outside a frame START is its body, and the line invariant has DIO an output there. -/
theorem startEmitsTheStartSequence : Obligations.StartEmitsTheStartSequence := by
  intro s hr
  split
  next hp => exact exec_start_of_framed hr hp
  next hp =>
    have hidle := phase_eq_idle_of_ne_framed hp
    refine ⟨fun hl => (hl.idle hr.1 hidle).1, ?_⟩
    rw [exec_start_of_idle hr hidle, startBody_eq, startEvents, reconfigureEvents_released, List.append_assoc]

/-- Settles O16: by the phase; in a frame STOP is its body. -/
theorem stopEmitsTheStopSequence : Obligations.StopEmitsTheStopSequence := by
  intro s hr
  split
  next hp => exact exec_stop_of_idle hr hp
  next hp =>
    rw [exec_stop_of_framed hr (phase_eq_framed_of_ne_idle hp), stopBody_eq, stopEvents, reconfigureEvents_released,
      List.append_assoc]

/-- Settles O17: by the operand and then the phase; in a frame WRITE_BYTE sends its byte for the host. -/
theorem writeByteSendsEightBitsAndSamples : Obligations.WriteByteSendsEightBitsAndSamples := by
  intro s b hr
  split
  next hb => exact exec_writeByte_of_not_isByte hr (decide_eq_false hb)
  next hb =>
    have hbyte : isByte b = true := decide_eq_true (not_not.mp hb)
    split
    next hp => exact exec_writeByte_of_idle hr hbyte hp
    next hp =>
      rw [exec_writeByte_of_framed hr hbyte (phase_eq_framed_of_ne_idle hp), sendByteForHost_eq]
      rfl

/-! ## The port rule -/

/-- Settles O35: the invariant does not look at the host's list; stops write no event, and each performed operation emits
events the port rule allows. -/
theorem everyStepKeepsThePortInvariant : Obligations.EveryStepKeepsThePortInvariant :=
  fun _ _ hi h => step_keeps (fun _ _ hi => hi) (fun _ k op _ => portInv_takeStop k op)
    (fun _ _ _ _ => portInv_of_performed) h hi

/-! ## The end of a run -/

/-- R191: a run has not ended exactly while the engine is running and the host has an operation left. -/
theorem runEnd?_eq_none_iff {s : State} : s.runEnd? = none ↔ s.running ∧ s.prog ≠ [] := by
  unfold State.runEnd? State.running
  cases s.fault with
  | some f => simp
  | none =>
    cases s.refused with
    | some f => simp
    | none => cases s.prog <;> simp

/-- Settles O11: a step with a next state comes from a running engine whose host has an operation left, so from a run that
has not ended; and a step that performs the operation of a slot answers what `exec` does, which is a next state. -/
theorem aRunningEngineTakesEveryOperation : Obligations.ARunningEngineTakesEveryOperation := by
  refine ⟨fun s hend t h => ?ended, fun s slot rest i hend hp hd => ?step, fun i s hr => exec_exists_next hr i⟩
  case ended =>
    obtain ⟨hr, slot, rest, hp, -⟩ := step_next h
    have hnone : s.runEnd? = none := runEnd?_eq_none_iff.mpr ⟨hr, by simp [hp]⟩
    simp [hnone] at hend
  case step =>
    obtain ⟨hr, -⟩ := runEnd?_eq_none_iff.mp hend
    rw [step_of_decode_ok hr hp hd]
    exact exec_exists_next (s := { s with prog := rest }) hr i

end Sys2Proof.Machine
end

section
/-! PROOFS. The segment table and ENCODE_DIGIT (R41, R110, R112). -/

namespace Sys2Proof

/-! ## Admitted tables -/

/-- R112 (a) to (c) of a list of bytes. -/
theorem SegTable.admitted_iff {l : List Byte} :
    SegTable.admitted l = true ↔ l.length = 16 ∧ (∀ b ∈ l, b.getLsbD 7 = false) ∧ l.Nodup := by
  simp [SegTable.admitted, and_assoc]

theorem SegTable.length_entries (t : SegTable) : t.entries.length = 16 := (admitted_iff.mp t.ok).1

theorem SegTable.bit7_of_mem (t : SegTable) : ∀ b ∈ t.entries, b.getLsbD 7 = false := (admitted_iff.mp t.ok).2.1

theorem SegTable.nodup_entries (t : SegTable) : t.entries.Nodup := (admitted_iff.mp t.ok).2.2

theorem SegTable.ofList?_isSome_iff {l : List Byte} :
    (SegTable.ofList? l).isSome = true ↔ l.length = 16 ∧ (∀ b ∈ l, b.getLsbD 7 = false) ∧ l.Nodup := by
  rw [← admitted_iff]
  by_cases h : SegTable.admitted l = true <;> simp [SegTable.ofList?, h]

end Sys2Proof

namespace Sys2Proof.Machine

/-! ## Reads of the table -/

/-- R112 (c): different digits read different entries. -/
theorem readSegRom_injective (t : SegTable) : Function.Injective (readSegRom t) := fun _ _ h =>
  Fin.cast_injective _ (t.nodup_entries.injective_get h)

/-- R112 (b): no entry lights the colon. -/
theorem readSegRom_bit7 (t : SegTable) (d : Fin 16) : (readSegRom t d).getLsbD 7 = false :=
  t.bit7_of_mem _ (List.mem_of_getElem? (readSegRom_get? t d))

/-- R112 (d): no operation changes the configuration, and the table is part of it. -/
theorem exec_cfg {i : Instr} {s t : State} (h : exec i s = .next t) : t.cfg = s.cfg :=
  (registersAreWrittenOnlyByTheirOperations i s t h).1

/-- Settles O21: a table carries the proof of R112 (a) to (c), a list is taken exactly if it has that proof, and no
operation writes the configuration. -/
theorem segmentTableIsInjectiveAndFixed : Obligations.SegmentTableIsInjectiveAndFixed :=
  ⟨fun t => ⟨t.length_entries, t.bit7_of_mem, fun _ _ h => readSegRom_injective t h⟩,
    fun _ => SegTable.ofList?_isSome_iff, fun _ _ _ => exec_cfg⟩

/-! ## ENCODE_DIGIT -/

section
variable {s : State} {digit : Int} (hr : s.ready)
include hr

theorem exec_encodeDigit_of_not_isDigit (hd : isDigit digit = false) :
    exec (.encodeDigit digit) s = .next { s with refused := some ⟨.digit, 0x10⟩ } := by
  simp [exec, execEncodeDigit, perform_ready hr, hd, takeStop, refuse]

theorem exec_encodeDigit_of_isDigit (hd : isDigit digit = true) :
    exec (.encodeDigit digit) s =
      .next { s with results := s.results ++ [.seg (readSegRom s.cfg.segTable (Fin.ofNat 16 digit.toNat))] } := by
  simp [exec, execEncodeDigit, perform_ready hr, hd, encodeDigit, giveResult]

end

/-- Settles O20: by the operand; a digit in its domain is the index of the entry that is read. -/
theorem encodeDigitLooksUpTheTable : Obligations.EncodeDigitLooksUpTheTable := by
  intro s digit hr
  split
  next hd => exact exec_encodeDigit_of_not_isDigit hr (decide_eq_false hd)
  next hd =>
    have hdigit := not_not.mp hd
    have hentry := readSegRom_get? s.cfg.segTable (Fin.ofNat 16 digit.toNat)
    rw [Fin.val_ofNat, Nat.mod_eq_of_lt (by omega)] at hentry
    exact ⟨_, hentry, exec_encodeDigit_of_isDigit hr (decide_eq_true hdigit)⟩

end Sys2Proof.Machine
end

section
/-! PROOFS. The decimal decomposition (R115 to R118). -/

namespace Sys2Proof.Machine

/-! ## Digits -/

theorem val_decDigit (num length i : Nat) :
    (decDigit num length i).val = num / 10 ^ (length - 1 - i) % 10 := rfl

/-- R115: weighted by their places the digits add up to the part of the number that `length` places can show. -/
theorem sum_decDigit (num length : Nat) :
    ((List.range length).map fun i => (decDigit num length i).val * 10 ^ (length - 1 - i)).sum = num % 10 ^ length := by
  induction length with
  | zero => simp [Nat.mod_one]
  | succ length ih =>
    have hplace : ∀ i, length + 1 - 1 - (i + 1) = length - 1 - i := by omega
    rw [List.range_succ_eq_map, List.map_cons, List.map_map, List.sum_cons, Nat.mod_pow_succ, ← ih]
    simp only [Function.comp_def, Nat.succ_eq_add_one, hplace, val_decDigit]
    simp [Nat.add_comm, Nat.mul_comm]

/-- Settles O22: a number below 10^length is the whole of what `length` places can show. -/
theorem decimalDigitsAddUpToTheNumber : Obligations.DecimalDigitsAddUpToTheNumber := fun num length hnum =>
  ⟨fun i _ => val_decDigit num length i, (sum_decDigit num length).trans (Nat.mod_eq_of_lt hnum)⟩

/-! ## Blanks -/

/-- R116: with leading zeros on, no element is blank. -/
theorem blank_leadingZero (num length i : Nat) : blank num true length i = false := rfl

/-- R116, R118: with leading zeros off, the blanks are the elements before the first digit that is shown; 0 is shown as
one digit. -/
theorem blank_iff (num length i : Nat) :
    blank num false length i = true ↔ i < length - max 1 (Nat.digits 10 num).length := by
  have hdigits := Nat.digits_length_le_iff (k := place length i) (show 1 < 10 by decide) num
  rw [blank, Bool.not_false, Bool.true_and, Bool.and_eq_true, decide_eq_true_eq, decide_eq_true_eq, ← hdigits, place]
  omega

/-- A predicate that holds exactly below k holds k times below any n that is no less. -/
theorem countP_range_of_iff_lt {p : Nat → Bool} {k n : Nat} (hp : ∀ i, p i = true ↔ i < k) (hk : k ≤ n) :
    (List.range n).countP p = k := by
  obtain ⟨m, rfl⟩ := Nat.exists_eq_add_of_le hk
  have hbelow : (List.range k).countP p = k :=
    (List.countP_eq_length.mpr fun i hi => (hp i).mpr (List.mem_range.mp hi)).trans List.length_range
  have habove : ((List.range m).map (k + ·)).countP p = 0 := by
    simp [List.countP_eq_zero, hp]
  rw [List.range_add, List.countP_append, hbelow, habove, Nat.add_zero]

/-- Settles O23: the blanks are exactly the elements below `length - max 1 (ndigits num)`. -/
theorem blanksFormAPrefix : Obligations.BlanksFormAPrefix := by
  intro num length hlen _
  refine ⟨fun i j hji _ hi => ?before, ?count, ?units, blank_leadingZero num length⟩
  case before =>
    rw [blank_iff] at hi ⊢
    omega
  case count => exact countP_range_of_iff_lt (blank_iff num length) (Nat.sub_le _ _)
  case units =>
    rw [← Bool.not_eq_true, blank_iff]
    omega

end Sys2Proof.Machine
end

section
/-! PROOFS. SHOW_NUMBER_DEC under the reference receiver (R116, R117, R140 to R142, R150 to R153). -/

namespace Sys2Proof.Machine

/-! ## The segment sequence of a number -/

/-- R117: the byte of one element, before the colon is applied. -/
def decSegment (t : SegTable) (num : Nat) (lz : Bool) (length i : Nat) : Byte :=
  if blank num lz length i then 0x00 else encodeDigit t (decDigit num length i)

section
variable (t : SegTable) (num : Nat) (lz : Bool) (length : Nat)

@[simp] theorem length_decSegments : (decSegments t num lz length).length = length := by simp [decSegments]

theorem getElem?_decSegments {i : Nat} (hi : i < length) :
    (decSegments t num lz length)[i]? = some (decSegment t num lz length i) := by
  simp [decSegments, decSegment, hi]

/-- R112 (b): neither a blank nor a digit has the colon bit. -/
theorem decSegment_bit7 (i : Nat) : (decSegment t num lz length i).getLsbD 7 = false := by
  unfold decSegment
  split
  · rfl
  · exact readSegRom_bit7 t _

/-- R70, R117: a blank lights no segment, and a digit those of its table entry. -/
theorem lights_decSegment (i : Nat) (g : Segment) :
    lights (decSegment t num lz length i) g =
      if blank num lz length i then false else lights (readSegRom t (decDigit num length i)) g := by
  unfold decSegment encodeDigit
  split
  · simp [lights]
  · rfl

end

/-! ## The colon -/

@[simp] theorem length_applyColon (c : Bool) (pos : Nat) (seq : List Byte) :
    (applyColon c pos seq).length = seq.length := by
  unfold applyColon
  split <;> simp

/-- R141: the colon bit goes to the element that is shown at position 1, and to no other. -/
theorem getElem?_applyColon (c : Bool) (pos i : Nat) (seq : List Byte) :
    (applyColon c pos seq)[i]? = seq[i]?.map fun b => if c = true ∧ pos + i = 1 then b ||| colonBit else b := by
  unfold applyColon
  split
  next h =>
    obtain ⟨rfl, hpos, -⟩ := h
    have hcol : 1 - pos = i ↔ pos + i = 1 := by omega
    simp [List.getElem?_modify, hcol]
  next h =>
    by_cases hi : i < seq.length
    · have hcol : ¬ (c = true ∧ pos + i = 1) := fun ⟨hc, h1⟩ => h ⟨hc, by omega, by omega⟩
      simp [hcol]
    · simp [List.getElem?_eq_none (Nat.le_of_not_lt hi)]

/-- R71: the colon bit lights no segment. -/
theorem lights_or_colonBit (b : Byte) (g : Segment) : lights (b ||| colonBit) g = lights b g := by
  cases g <;> simp [lights, Segment.bit, colonBit]

theorem bit7_or_colonBit (b : Byte) : (b ||| colonBit).getLsbD 7 = true := by simp [colonBit]

/-! ## The frames of a display write as the receiver reads them -/

theorem Receiver.ofFrames_append (fs gs : List (List Byte)) :
    Receiver.ofFrames (fs ++ gs) = gs.foldl Receiver.onFrame (Receiver.ofFrames fs) := by
  simp [Receiver.ofFrames]

theorem decodeCommand_addressByte {pos : Nat} (h : pos < 4) :
    decodeCommand (addressByte pos) = some (.cmdAddr (BitVec.ofNat 2 pos)) := by
  revert pos
  decide

/-- R67, R69: of a BRIGHT with bits 6:4 zero the control byte is the display-control command. -/
theorem decodeCommand_controlByte_of_control {v : Byte} (h : v &&& 0x70 = 0) :
    decodeCommand (controlByte v) = some (.cmdDispCtrl (v.getLsbD 3) (v.extractLsb' 0 3)) := by
  revert v
  decide

/-- R69: of a BRIGHT 0x40..0x43 or 0xC0..0xC3 the control byte collides with an address command. -/
theorem decodeCommand_controlByte_of_address {v : Byte} (h : v &&& 0x7C = 0x40) :
    decodeCommand (controlByte v) = some (.cmdAddr (v.extractLsb' 0 2)) := by
  revert v
  decide

/-- R69: of any other BRIGHT it is none of the three commands. -/
theorem decodeCommand_controlByte_of_neither {v : Byte} (h : ¬ (v &&& 0x70 = 0 ∨ v &&& 0x7C = 0x40)) :
    decodeCommand (controlByte v) = none := by
  revert v
  decide

/-- R67: bits 3:0 of the control byte are those of BRIGHT. -/
theorem controlByte_low_bits (v : Byte) : controlByte v &&& 0x0F = v &&& 0x0F := by
  revert v
  decide

/-- R151: F_DATA. -/
theorem Receiver.onFrame_data (r : Receiver) : r.onFrame [0x40] = { r with autoInc := some true } := rfl

/-- R151: F_ADDR on the display writes its run. -/
theorem Receiver.onFrame_address {r : Receiver} {pos : Nat} {segs : List Byte} (hr : r.autoInc = some true)
    (hpos : pos < 4) (hfits : pos + segs.length ≤ 4) :
    r.onFrame (addressByte pos :: segs) = { r with disp := Memory.writeRun pos segs r.disp } := by
  simp [onFrame, decodeCommand_addressByte hpos, hr, Nat.mod_eq_of_lt hpos, hfits]

/-- R151, R153: F_CTRL with a byte that is a command sets RX_CTRL, or is an address frame of no bytes. -/
theorem Receiver.onFrame_control {r : Receiver} {v : Byte} (hr : r.autoInc = some true)
    (hv : v &&& 0x70 = 0 ∨ v &&& 0x7C = 0x40) :
    r.onFrame [controlByte v] = { r with ctrl := if v &&& 0x70 = 0 then some (v &&& 0x0F) else r.ctrl } := by
  by_cases hctrl : v &&& 0x70 = 0
  · simp only [onFrame, decodeCommand_controlByte_of_control hctrl, controlByte_low_bits, if_pos hctrl, if_true]
  · have haddr := decodeCommand_controlByte_of_address (hv.resolve_left hctrl)
    have hlt := (v.extractLsb' 0 2).isLt
    simp only [onFrame, haddr, hr, hctrl, List.length_nil, Memory.writeRun]
    rw [if_pos ⟨trivial, by omega⟩]
    rfl

/-- R151: F_CTRL with a byte that is no command leaves the receiver UNKNOWN. -/
theorem Receiver.onFrame_control_of_neither (r : Receiver) {v : Byte} (hv : ¬ (v &&& 0x70 = 0 ∨ v &&& 0x7C = 0x40)) :
    r.onFrame [controlByte v] = Receiver.initial := by
  simp [onFrame, decodeCommand_controlByte_of_neither hv]

section
variable {s : State} (hc : s.constructed = true) (hl : LineInv s) (hw : WireInv s) (hp : s.phase = .idle)
  {segs : List Byte} {pos : Nat} (hpos : pos < 4) (hfits : pos + segs.length ≤ 4)
include hc hl hw hp hpos hfits

/-- R151, R153: a display write on an idle bus writes its bytes to its positions, and its control byte comes last. -/
theorem receiver_sendDisplay (v : Byte) :
    (sendDisplay segs pos (controlByte v) s).receiver =
      Receiver.onFrame ⟨some true, Memory.writeRun pos segs s.receiver.disp, s.receiver.ctrl⟩ [controlByte v] := by
  have hwire := wire_sendDisplay hc hl hw segs pos v hp
  have hframes : displayFrames pos segs v = [[0x40], addressByte pos :: segs, [controlByte v]] := rfl
  rw [State.receiver, State.frames, hwire, Receiver.ofFrames_append, hframes, List.foldl_cons, List.foldl_cons,
    List.foldl_cons, List.foldl_nil, Receiver.onFrame_data, Receiver.onFrame_address rfl hpos hfits]
  rfl

theorem receiver_sendDisplay_of_command {v : Byte} (hv : v &&& 0x70 = 0 ∨ v &&& 0x7C = 0x40) :
    (sendDisplay segs pos (controlByte v) s).receiver =
      { autoInc := some true
        disp := Memory.writeRun pos segs s.receiver.disp
        ctrl := if v &&& 0x70 = 0 then some (v &&& 0x0F) else s.receiver.ctrl } := by
  rw [receiver_sendDisplay hc hl hw hp hpos hfits, Receiver.onFrame_control rfl hv]

theorem receiver_sendDisplay_of_neither {v : Byte} (hv : ¬ (v &&& 0x70 = 0 ∨ v &&& 0x7C = 0x40)) :
    (sendDisplay segs pos (controlByte v) s).receiver = Receiver.initial := by
  rw [receiver_sendDisplay hc hl hw hp hpos hfits, Receiver.onFrame_control_of_neither _ hv]

end

/-! ## Its view after SHOW_NUMBER_DEC -/

/-- R140, R141: the byte sent for element i of the number, which is shown at position `pos + i`. -/
def numberByte (t : SegTable) (num : Nat) (lz c : Bool) (length pos i : Nat) : Byte :=
  if c = true ∧ pos + i = 1 then decSegment t num lz length i ||| colonBit else decSegment t num lz length i

section
variable {t : SegTable} {num : Nat} {lz c : Bool} {length pos i : Nat}

/-- R71, R142: the segments shown do not depend on the colon. -/
theorem lights_numberByte (g : Segment) :
    lights (numberByte t num lz c length pos i) g = lights (decSegment t num lz length i) g := by
  unfold numberByte
  split
  · exact lights_or_colonBit _ g
  · rfl

/-- R71, R141: bit 7 of the byte for position 1 is the colon. -/
theorem bit7_numberByte_at_one (h : pos + i = 1) : (numberByte t num lz c length pos i).getLsbD 7 = c := by
  cases c with
  | true => rw [numberByte, if_pos ⟨rfl, h⟩, bit7_or_colonBit]
  | false => rw [numberByte, if_neg (by simp), decSegment_bit7]

/-- R46, R140: what DISP holds where the number's bytes are written. -/
theorem read_writeRun_number (m : Memory) {p : Nat} (hi : i < length) (hp : pos + i = p) :
    (Memory.writeRun pos (applyColon c pos (decSegments t num lz length)) m).read p =
      some (numberByte t num lz c length pos i) := by
  subst hp
  rw [Memory.read_writeRun, length_applyColon, length_decSegments, if_pos (by omega), Nat.add_sub_cancel_left,
    getElem?_applyColon, getElem?_decSegments t num lz length hi, Option.map_some, numberByte]

end

theorem Receiver.shows_of_read {r : Receiver} {p : Nat} {b : Byte} (h : r.disp.read p = some b) (g : Segment) :
    r.shows p g = some (lights b g) := by
  simp [shows, h]

theorem Receiver.colonLit_of_read {r : Receiver} {b : Byte} (h : r.disp.read 1 = some b) :
    r.colonLit = some (b.getLsbD 7) := by
  simp [colonLit, h]

/-- R152: the view of an RX_CTRL that the control frame set to BRIGHT's low bits, or left as it was. -/
theorem Receiver.displayOn_of_ctrl {r r' : Receiver} {v : Byte}
    (h : r.ctrl = if v &&& 0x70 = 0 then some (v &&& 0x0F) else r'.ctrl) :
    r.displayOn = if v &&& 0x70 = 0 then some (v.getLsbD 3) else r'.displayOn := by
  rw [displayOn, h, apply_ite (Option.map _)]
  simp [displayOn]

theorem Receiver.level_of_ctrl {r r' : Receiver} {v : Byte}
    (h : r.ctrl = if v &&& 0x70 = 0 then some (v &&& 0x0F) else r'.ctrl) :
    r.level = if v &&& 0x70 = 0 then some (v.extractLsb' 0 3) else r'.level := by
  have hlow : ∀ v : Byte, (v &&& 0x0F).extractLsb' 0 3 = v.extractLsb' 0 3 := by decide
  rw [level, h, apply_ite (Option.map _), Option.map_some, hlow, level]

/-- Settles O41: the operation is the display write of the number's bytes, so the receiver's DISP is what the run of
those bytes leaves, and its RX_CTRL what the control byte, the last frame, leaves. -/
theorem showNumberDecShowsTheNumber : Obligations.ShowNumberDecShowsTheNumber := by
  intro s num lz length pos c e v e' hr hl hw hp hc hv hwf
  obtain ⟨hlength, hposition, hfits, -⟩ := showNumberDec_checks hwf
  simp only [isDecimalLength, isPosition, fitsDisplay, decide_eq_true_eq] at hlength hposition hfits
  refine ⟨_, exec_showNumberDec_of_wellFormed hr hp hwf hc hv, ?_⟩
  have hpos : pos.toNat < 4 := by omega
  have hseq :
      pos.toNat + (applyColon c pos.toNat (decSegments s.cfg.segTable num.toNat lz length.toNat)).length ≤ 4 := by
    rw [length_applyColon, length_decSegments]
    omega
  split
  case isTrue hcmd =>
    rw [receiver_sendDisplay_of_command (s := { s with env := e' }) hr.1 hl hw hp hpos hseq hcmd]
    refine ⟨fun i hi g => ?shows, fun p hout => ?others, fun h0 h1 => ?colon, Receiver.displayOn_of_ctrl rfl,
      Receiver.level_of_ctrl rfl⟩
    case shows =>
      rw [Receiver.shows_of_read (read_writeRun_number _ hi rfl), lights_numberByte, lights_decSegment]
    case others => exact (Memory.read_writeRun _ p _ _).trans (if_neg (by simpa using hout))
    case colon =>
      have hone : pos.toNat + (1 - pos.toNat) = 1 := by omega
      rw [Receiver.colonLit_of_read (read_writeRun_number _ (by omega) hone), bit7_numberByte_at_one hone]
  case isFalse hcmd => exact receiver_sendDisplay_of_neither (s := { s with env := e' }) hr.1 hl hw hp hpos hseq hcmd

end Sys2Proof.Machine
end

section
/-! PROOFS. SET_SEGMENTS under the reference receiver (R150, R151, R153). -/

namespace Sys2Proof.Machine

/-- R134: of a segment list that passes its check, as many bytes are sent as `length` says. -/
theorem length_segmentBytes {segments : List Int} {length : Int} (h : segmentsOk segments length = true) :
    (segmentBytes segments length).length = length.toNat := by
  simp only [segmentsOk, Bool.and_eq_true, decide_eq_true_eq] at h
  obtain ⟨hlen, -⟩ := h
  simp only [segmentBytes, List.length_map, List.length_take]
  omega

/-- R137: each is the element at its place, verbatim. -/
theorem getElem?_segmentBytes {segments : List Int} {length : Int} {i : Nat} (hi : i < length.toNat) :
    (segmentBytes segments length)[i]? = segments[i]?.map (BitVec.ofInt 8) := by
  rw [segmentBytes, List.getElem?_map, List.getElem?_take_of_lt hi]
  rfl

/-- Settles O40: the operation is the display write of its bytes, so DISP is what the run of those bytes leaves, and
RX_CTRL what the control byte, the last frame, leaves. -/
theorem setSegmentsWritesExactlyItsPositions : Obligations.SetSegmentsWritesExactlyItsPositions := by
  intro s segments length pos v e hr hl hw hp hv hwf
  obtain ⟨hlength, hposition, hfits, hsegs⟩ := setSegments_checks hwf
  simp only [isSegmentsLength, isPosition, fitsDisplay, decide_eq_true_eq] at hlength hposition hfits
  refine ⟨_, exec_setSegments_of_wellFormed hr hp hwf hv, ?_⟩
  have hpos : pos.toNat < 4 := by omega
  have hrun : pos.toNat + (segmentBytes segments length).length ≤ 4 := by
    rw [length_segmentBytes hsegs]
    omega
  split
  case isTrue hcmd =>
    rw [receiver_sendDisplay_of_command (s := { s with env := e }) hr.1 hl hw hp hpos hrun hcmd]
    refine ⟨rfl, rfl, fun p => ?_⟩
    rw [Memory.read_writeRun, length_segmentBytes hsegs]
    refine ite_congr rfl (fun hin => ?_) (fun _ => rfl)
    exact getElem?_segmentBytes (by omega)
  case isFalse hcmd => exact receiver_sendDisplay_of_neither (s := { s with env := e }) hr.1 hl hw hp hpos hrun hcmd

end Sys2Proof.Machine
end

section
/-! PROOFS. The Display Controller's operations in the terms of their rules (R131, R133, R134, R140, R141, R145, R165). -/

namespace Sys2Proof.Machine

/-! ## The checks of an operation, in their order -/

/-- R165: an operation that comes to a check stops there if the check fails, which is so exactly where `p` holds, with
nothing written but the stop's record; otherwise it goes on with the rest of its course. -/
theorem rule_of_check {op : Opsel} {s t : State} {b : Bool} {k : Stop} {c : Course} {x : Result} {p rest : Prop}
    [Decidable p] (hx : x = settle op s (require b k c)) (hb : b = false ↔ p) (ht : takeStop k op s = t)
    (hrest : ¬ p → x = settle op s c → rest) : if p then x = .next t else rest := by
  split
  next hp => rw [hx, hb.mpr hp, require_false, settle_error, ht]
  next hp =>
    have htrue : b = true := by rwa [← hb, Bool.not_eq_false] at hp
    exact hrest hp (by rw [hx, htrue, require_true])

/-! ## SET_BRIGHTNESS and SET_COLON -/

/-- R131: masking the level is taking it mod 8, and the display-on bit is above it. -/
theorem brightByte_eq_ofNat {level : Int} (h : 0 ≤ level) (on : Bool) :
    brightByte level on = BitVec.ofNat 8 (level.toNat % 8 + if on then 8 else 0) := by
  obtain ⟨n, rfl⟩ := Int.eq_ofNat_of_zero_le h
  have hmask : toByte n &&& 0x07 = BitVec.ofNat 8 (n % 8) := by
    apply BitVec.eq_of_toNat_eq
    have hand := Nat.and_two_pow_sub_one_eq_mod (n % 256) 3
    simp [toByte] at hand ⊢
    omega
  have hor : ∀ k < 8, ∀ on : Bool,
      BitVec.ofNat 8 k ||| (if on then 0x08 else 0x00) = BitVec.ofNat 8 (k + if on then 8 else 0) := by decide
  rw [brightByte, hmask, hor (n % 8) (Nat.mod_lt n (by decide)), Int.toNat_natCast]

/-- Settles O24: by the sign of the level; R64's omitted operand is the decoder's. -/
theorem setBrightnessWritesBright : Obligations.SetBrightnessWritesBright := by
  intro s level on hr
  refine ⟨decode_encode (.setBrightness level on), rfl, ?_⟩
  refine rule_of_check (perform_ready hr _) (decide_eq_false_iff_not.trans not_le) rfl fun hlevel h => ?_
  rw [h, settle_ok, brightByte_eq_ofNat (not_lt.mp hlevel)]

/-- Settles O25: SET_COLON has no check of its own. -/
theorem setColonWritesColon : Obligations.SetColonWritesColon := fun _ _ hr => perform_ready hr _

/-! ## What the display writes share -/

/-- R134, R140, R145: the framing check of the display writes. -/
theorem idleCheck_eq_false_iff {s : State} : decide (s.phase = .idle) = false ↔ s.phase = .framed := by
  cases s.phase <;> simp

/-- R134, R140: the range check. -/
theorem fitsDisplay_eq_false_iff {length pos : Int} : fitsDisplay length pos = false ↔ 4 < pos + length := by
  simp [fitsDisplay]

/-- A BRIGHT that holds a value or draws one can be read. -/
theorem exists_brightReadsAs {s : State} (h : s.bright ≠ .noValue) : ∃ v e, BrightReadsAs s v e := by
  cases hb : s.bright with
  | noValue => exact absurd hb h
  | held v => exact ⟨v, s.env, .inl ⟨hb, rfl⟩⟩
  | drawn => exact ⟨_, _, .inr ⟨hb, rfl, rfl⟩⟩

/-- R134 on an idle bus under the line invariant: after the reads of COLON and BRIGHT, which leave the environment `e`,
the three frames are all that a display write adds, and PHASE and DIO's direction are as they were. -/
theorem sendDisplay_of_idle {s : State} (hc : s.constructed = true) (hl : LineInv s) (hp : s.phase = .idle)
    (segs : List Byte) (pos : Nat) (v : Byte) (e : Env) :
    sendDisplay segs pos (controlByte v) { s with env := e } = { s with
      trace := s.trace ++ framesEvents s.clkPin s.dioPin (displayFrames pos segs v) (drawAcks (3 + segs.length) e).1
      clkLvl := .driven .high
      dioLvl := .driven .high
      env := (drawAcks (3 + segs.length) e).2 } := by
  obtain ⟨hdir, -⟩ := hl.idle hc hp
  rw [sendDisplay_eq segs pos v { s with env := e } hdir, ← hp]

/-! ## SET_SEGMENTS -/

/-- R134: the segment list's check fails if the list is too short or one of the elements to be sent is no byte. -/
theorem segmentsOk_eq_false_iff {segments : List Int} {length : Int} :
    segmentsOk segments length = false ↔
      (segments.length : Int) < length ∨ ∃ x ∈ segments.take length.toNat, ¬ (0 ≤ x ∧ x ≤ 255) := by
  simp only [segmentsOk, isByte, Bool.and_eq_false_iff, decide_eq_false_iff_not, not_le, List.all_eq_false,
    decide_eq_true_eq]

/-- Settles O26: the checks in R134's order, then the display write of the segment list's bytes. -/
theorem setSegmentsFollowsItsRule : Obligations.SetSegmentsFollowsItsRule := by
  intro s segments length pos hr hl
  refine rule_of_check (perform_ready hr _) decide_eq_false_iff_not rfl fun _ h => ?_
  refine rule_of_check h decide_eq_false_iff_not rfl fun _ h => ?_
  refine rule_of_check h fitsDisplay_eq_false_iff rfl fun _ h => ?_
  refine rule_of_check h segmentsOk_eq_false_iff rfl fun hsegs h => ?_
  refine rule_of_check h idleCheck_eq_false_iff rfl fun hp h => ?_
  split
  next hb => rw [h, displayWrite_noValue hb]; rfl
  next hb =>
    have hok : segmentsOk segments length = true := by rwa [← segmentsOk_eq_false_iff, Bool.not_eq_false] at hsegs
    obtain ⟨v, e, hv⟩ := exists_brightReadsAs hb
    refine ⟨v, e, hv, ?_⟩
    rw [h, displayWrite_of_reads hv, settle_ok, sendDisplay_of_idle hr.1 hl (phase_eq_idle_of_ne_framed hp),
      length_segmentBytes hok]
    rfl

/-! ## SHOW_NUMBER_DEC -/

/-- R116, R117: the byte of an element is 0x00 for a leading blank and the table's entry for its digit otherwise. -/
theorem decSegment_spec (t : SegTable) (num : Nat) (lz : Bool) (length i : Nat) :
    if lz = false ∧ 0 < length - 1 - i ∧ num < 10 ^ (length - 1 - i) then decSegment t num lz length i = 0x00
    else t.entries[num / 10 ^ (length - 1 - i) % 10]? = some (decSegment t num lz length i) := by
  have hblank : blank num lz length i = true ↔ lz = false ∧ 0 < length - 1 - i ∧ num < 10 ^ (length - 1 - i) := by
    rw [blank, Bool.and_eq_true, Bool.and_eq_true, Bool.not_eq_true', decide_eq_true_eq, decide_eq_true_eq, and_assoc,
      place]
  simp only [← hblank, decSegment]
  split
  next => rfl
  next => exact readSegRom_get? t (decDigit num length i)

/-- Settles O27: the checks in R140's order, then the display write of the number's bytes, each of which is the digit's
or the blank's with the colon applied. -/
theorem showNumberDecFollowsItsRule : Obligations.ShowNumberDecFollowsItsRule := by
  intro s num lz length pos hr hl
  refine rule_of_check (perform_ready hr _) decide_eq_false_iff_not rfl fun _ h => ?_
  refine rule_of_check h decide_eq_false_iff_not rfl fun _ h => ?_
  refine rule_of_check h fitsDisplay_eq_false_iff rfl fun _ h => ?_
  refine rule_of_check h decide_eq_false_iff_not rfl fun _ h => ?_
  refine rule_of_check h idleCheck_eq_false_iff rfl fun hp h => ?_
  split
  next hcol => rw [h, readColon_noValue hcol]; rfl
  next hcol =>
    obtain ⟨c, e, hc, -⟩ := exists_colonReadsAs hcol
    simp only [readColon_of_reads hc] at h
    split
    next hb => rw [h, displayWrite_noValue (s := { s with env := e }) hb]; rfl
    next hb =>
      obtain ⟨v, e', hv⟩ := exists_brightReadsAs (s := { s with env := e }) hb
      refine ⟨c, e, v, e', applyColon c pos.toNat (decSegments s.cfg.segTable num.toNat lz length.toNat), hc, hv, ?length,
        fun i hi => ⟨_, decSegment_spec s.cfg.segTable num.toNat lz length.toNat i, ?element⟩, ?sent⟩
      case length => rw [length_applyColon, length_decSegments]
      case element =>
        rw [getElem?_applyColon, getElem?_decSegments _ _ _ _ hi]
        rfl
      case sent =>
        rw [h, displayWrite_of_reads hv, settle_ok, sendDisplay_of_idle hr.1 hl (phase_eq_idle_of_ne_framed hp),
          length_applyColon, length_decSegments]

/-! ## CLEAR -/

/-- R145: SET_SEGMENTS [0, 0, 0, 0], 4, 0 on an idle bus is CLEAR. -/
theorem exec_clear_eq_setSegments {s : State} {v : Byte} {e : Env} (hr : s.ready) (hp : s.phase = .idle)
    (hv : BrightReadsAs s v e) : exec .clear s = exec (.setSegments [0, 0, 0, 0] 4 0) s := by
  have hblank : segmentBytes [0, 0, 0, 0] 4 = [0x00, 0x00, 0x00, 0x00] := by decide
  rw [exec_clear_of_idle hr hp hv, exec_setSegments_of_wellFormed hr hp (by decide) hv, hblank, Int.toNat_zero]

/-- Settles O28: the checks in R145's order; what CLEAR then sends is what SET_SEGMENTS sends of four blanks. -/
theorem clearIsFourBlankSegments : Obligations.ClearIsFourBlankSegments := by
  intro s hr hl
  refine rule_of_check (perform_ready hr _) idleCheck_eq_false_iff rfl fun hp h => ?_
  split
  next hb => rw [h, displayWrite_noValue hb]; rfl
  next hb =>
    have hidle := phase_eq_idle_of_ne_framed hp
    obtain ⟨v, e, hv⟩ := exists_brightReadsAs hb
    refine ⟨exec_clear_eq_setSegments hr hidle hv, v, e, hv, ?_⟩
    rw [h, displayWrite_of_reads hv, settle_ok, sendDisplay_of_idle hr.1 hl hidle]
    rfl

end Sys2Proof.Machine
end

section
/-! PROOFS. What the environment's levels decide (R82, R90, R136, R167). -/

namespace Sys2Proof.Machine

/-! ## States that differ by sampled levels alone -/

/-- The states are the same but for the levels of the READ events, the results, of which there are as many, and the
environment. -/
def SameButLevels (s t : State) : Prop :=
  ∃ tr rs e, t = { s with trace := tr, results := rs, env := e } ∧
    tr.map PinEvent.withoutLevel = s.trace.map PinEvent.withoutLevel ∧ rs.length = s.results.length

theorem SameButLevels.of_env (s : State) (e : Env) : SameButLevels s { s with env := e } :=
  ⟨s.trace, s.results, e, rfl, rfl, rfl⟩

/-- R82, R89: of a byte's events the sampled level is in the READ event only. -/
theorem byteEvents_withoutLevel (c d : PinId) (released : Bool) (b : Byte) (v w : Level) :
    (byteEvents c d released b v).map PinEvent.withoutLevel = (byteEvents c d released b w).map PinEvent.withoutLevel := by
  simp [byteEvents, ackEvents, PinEvent.withoutLevel]

section
variable {s t : State} (h : SameButLevels s t)
include h

theorem SameButLevels.takeStop (k : Stop) (op : Opsel) : SameButLevels (takeStop k op s) (takeStop k op t) := by
  obtain ⟨tr, rs, e, rfl, htr, hrs⟩ := h
  cases k <;> exact ⟨tr, rs, e, rfl, htr, hrs⟩

theorem SameButLevels.constructBody (clk dio : PinId) :
    SameButLevels (constructBody clk dio s) (constructBody clk dio t) := by
  obtain ⟨tr, rs, e, rfl, htr, hrs⟩ := h
  rw [constructBody_eq, constructBody_eq]
  exact ⟨_, rs, e, rfl, by simp [htr], hrs⟩

theorem SameButLevels.delay : SameButLevels (delay s) (delay t) := by
  obtain ⟨tr, rs, e, rfl, htr, hrs⟩ := h
  exact ⟨_, rs, e, rfl, by simp [delay_eq, htr], hrs⟩

theorem SameButLevels.startBody : SameButLevels (startBody s) (startBody t) := by
  obtain ⟨tr, rs, e, rfl, htr, hrs⟩ := h
  rw [startBody_eq, startBody_eq]
  exact ⟨_, rs, e, rfl, by simp [htr], hrs⟩

theorem SameButLevels.stopBody : SameButLevels (stopBody s) (stopBody t) := by
  obtain ⟨tr, rs, e, rfl, htr, hrs⟩ := h
  rw [stopBody_eq, stopBody_eq]
  exact ⟨_, rs, e, rfl, by simp [htr], hrs⟩

theorem SameButLevels.giveResult (r r' : HostResult) : SameButLevels (giveResult r s) (giveResult r' t) := by
  obtain ⟨tr, rs, e, rfl, htr, hrs⟩ := h
  exact ⟨tr, _, e, rfl, htr, by simp [hrs]⟩

/-- R136: the sampled level of a byte is looked at nowhere after its READ. -/
theorem SameButLevels.sendByte (b : Byte) : SameButLevels (sendByte b s) (sendByte b t) := by
  obtain ⟨tr, rs, e, rfl, htr, hrs⟩ := h
  rw [sendByte_eq, sendByte_eq]
  refine ⟨_, rs, _, rfl, ?_, hrs⟩
  rw [List.map_append, List.map_append, htr, byteEvents_withoutLevel _ _ _ _ _ s.env.drawAck.1]

/-- R90: for the host it decides the result too. -/
theorem SameButLevels.sendByteForHost (b : Byte) : SameButLevels (sendByteForHost b s) (sendByteForHost b t) :=
  (h.sendByte b).giveResult _ _

theorem SameButLevels.sendBytes (bytes : List Byte) : SameButLevels
    (bytes.foldl (fun s b => Machine.sendByte b s) s) (bytes.foldl (fun s b => Machine.sendByte b s) t) := by
  induction bytes generalizing s t with
  | nil => exact h
  | cons b bytes ih =>
    rw [List.foldl_cons, List.foldl_cons]
    exact ih (h.sendByte b)

theorem SameButLevels.sendFrame (bytes : List Byte) : SameButLevels (sendFrame bytes s) (sendFrame bytes t) :=
  (h.startBody.sendBytes bytes).stopBody

theorem SameButLevels.sendDisplay (segs : List Byte) (pos : Nat) (ctrl : Byte) :
    SameButLevels (sendDisplay segs pos ctrl s) (sendDisplay segs pos ctrl t) :=
  ((h.sendFrame _).sendFrame _).sendFrame _

end

/-! ## Courses that differ by sampled levels alone -/

/-- Both courses are stopped by the same check, or neither is and the states they leave differ by levels alone. -/
inductive SameCourse : Course → Course → Prop
  | ok {s t : State} (h : SameButLevels s t) : SameCourse (.ok s) (.ok t)
  | error (k : Stop) : SameCourse (.error k) (.error k)

theorem SameCourse.require {c c' : Course} (h : SameCourse c c') (b : Bool) (k : Stop) :
    SameCourse (require b k c) (require b k c') := by
  cases b with
  | false => exact .error k
  | true => exact h

/-- What a course makes of a state: whether there is a next state is told by FAULT and REFUSED and never by the
environment, and the next states differ by levels alone. -/
def SameResult (r r' : Result) : Prop := ∀ t, r = .next t → ∃ t', r' = .next t' ∧ SameButLevels t t'

section
variable {s : State} {c c' : Course} (op : Opsel) (e : Env) (h : SameCourse c c')
include h

theorem SameCourse.settle : SameResult (settle op s c) (settle op { s with env := e } c') := by
  intro t ht
  cases h with
  | ok hst =>
    cases ht
    exact ⟨_, rfl, hst⟩
  | error k =>
    cases ht
    exact ⟨_, rfl, (SameButLevels.of_env s e).takeStop k op⟩

theorem SameCourse.unlessStopped : SameResult (unlessStopped s (Machine.settle op s c))
    (unlessStopped { s with env := e } (Machine.settle op { s with env := e } c')) := by
  intro t ht
  obtain ⟨hr, ht⟩ := unlessStopped_next ht
  rw [unlessStopped_running (s := { s with env := e }) hr]
  exact h.settle op e t ht

theorem SameCourse.perform : SameResult (perform op s c) (perform op { s with env := e } c') :=
  (h.require s.constructed (.refuse .notConstructed)).unlessStopped op e

end

/-! ## Every operation -/

section
variable {s : State} (e : Env)

theorem register_of_ne_drawn {α : Type} {r : Register α} (h : r ≠ .drawn) : r = .noValue ∨ ∃ v, r = .held v := by
  cases r with
  | noValue => exact .inl rfl
  | drawn => exact absurd rfl h
  | held v => exact .inr ⟨v, rfl⟩

/-- A COLON that is not drawn is read without the environment. -/
theorem readColon_of_ne_drawn (h : s.colon ≠ .drawn) :
    (∃ c, readColon s = .ok (c, s) ∧ readColon { s with env := e } = .ok (c, { s with env := e })) ∨
      ∃ k, readColon s = .error k ∧ readColon { s with env := e } = .error k := by
  rcases register_of_ne_drawn h with hcol | ⟨c, hcol⟩
  · exact .inr ⟨_, readColon_noValue hcol, readColon_noValue (s := { s with env := e }) hcol⟩
  · have hreads : ColonReadsAs s c s.env := .inl ⟨hcol, rfl⟩
    have hreads' : ColonReadsAs { s with env := e } c e := .inl ⟨hcol, rfl⟩
    exact .inl ⟨c, readColon_of_reads hreads, readColon_of_reads hreads'⟩

/-- So is a BRIGHT that is not drawn. -/
theorem displayWrite_sameCourse (h : s.bright ≠ .drawn) (segs : List Byte) (pos : Nat) :
    SameCourse (displayWrite segs pos s) (displayWrite segs pos { s with env := e }) := by
  rcases register_of_ne_drawn h with hb | ⟨v, hb⟩
  · rw [displayWrite_noValue hb, displayWrite_noValue (s := { s with env := e }) hb]
    exact .error _
  · have hreads : BrightReadsAs s v s.env := .inl ⟨hb, rfl⟩
    have hreads' : BrightReadsAs { s with env := e } v e := .inl ⟨hb, rfl⟩
    rw [displayWrite_of_reads hreads, displayWrite_of_reads hreads']
    exact .ok ((SameButLevels.of_env s e).sendDisplay segs pos _)

/-- R73, R90: a wire byte. -/
theorem transmit_sameResult (b : Byte) : SameResult (transmit b s) (transmit b { s with env := e }) :=
  ((SameCourse.ok ((SameButLevels.of_env s e).sendByteForHost b)).require _ _).perform _ e

/-- R167: every operation takes the same course under other answers of the environment. -/
theorem exec_sameResult (i : Instr) (hb : s.bright ≠ .drawn) (hcol : s.colon ≠ .drawn) :
    SameResult (exec i s) (exec i { s with env := e }) := by
  have henv := SameButLevels.of_env s e
  cases i with
  | construct clk dio =>
    exact (((SameCourse.ok (henv.constructBody clk dio)).require _ _).require _ _).unlessStopped _ e
  | bitDelay => exact (SameCourse.ok henv.delay).perform _ e
  | start => exact ((SameCourse.ok henv.startBody).require _ _).perform _ e
  | stop => exact ((SameCourse.ok henv.stopBody).require _ _).perform _ e
  | writeByte b =>
    exact (((SameCourse.ok (henv.sendByteForHost (toByte b))).require _ _).require _ _).perform _ e
  | encodeDigit digit => exact ((SameCourse.ok (henv.giveResult _ _)).require _ _).perform _ e
  | setBrightness level on => exact ((SameCourse.ok (.of_env _ e)).require _ _).perform _ e
  | setColon on => exact (SameCourse.ok (.of_env _ e)).perform _ e
  | setSegments segments length pos =>
    exact ((((((displayWrite_sameCourse e hb _ _).require _ _).require _ _).require _ _).require _ _).require _ _).perform
      _ e
  | showNumberDec num lz length pos =>
    refine SameCourse.perform _ e (.require (.require (.require (.require (.require ?_ _ _) _ _) _ _) _ _) _ _)
    rcases readColon_of_ne_drawn e hcol with ⟨c, hread, hread'⟩ | ⟨k, hread, hread'⟩ <;> simp only [hread, hread']
    · exact displayWrite_sameCourse e hb _ _
    · exact .error k
  | clear => exact ((displayWrite_sameCourse e hb _ _).require _ _).perform _ e
  | cmdData | cmdDispCtrl on level | cmdAddr pos | segData b => exact transmit_sameResult e _

end

/-- R110: the result of an ENCODE_DIGIT that is performed is looked up in the table; a stop returns none. -/
theorem results_of_encodeDigit {digit : Int} {s t : State} (h : exec (.encodeDigit digit) s = .next t) :
    t.results = s.results ∨
      t.results = s.results ++ [.seg (encodeDigit s.cfg.segTable (Fin.ofNat 16 digit.toNat))] := by
  obtain ⟨-, ⟨-, -, rfl⟩ | ⟨k, rfl⟩⟩ := exec_next h
  · exact .inr rfl
  · rcases takeStop_cases k (Instr.encodeDigit digit).opsel s with ⟨f, ht⟩ | ⟨r, ht⟩ <;> exact .inl (by rw [ht])

/-- The environment has no part in it: two courses of one ENCODE_DIGIT that both return a result, or both none, return the
same. -/
theorem encodeDigit_results_eq {digit : Int} {s t t' : State} {e : Env} (h : exec (.encodeDigit digit) s = .next t)
    (h' : exec (.encodeDigit digit) { s with env := e } = .next t') (hlen : t'.results.length = t.results.length) :
    t'.results = t.results := by
  rcases results_of_encodeDigit h with hres | hres <;> rcases results_of_encodeDigit h' with hres' | hres' <;>
    simp [hres, hres'] at hlen ⊢

/-- Settles O32: with BRIGHT and COLON not drawn, the course is the same under any answers, and the states it leaves
differ by levels alone. -/
theorem ackLevelsDecideOnlyReadsAndResults : Obligations.AckLevelsDecideOnlyReadsAndResults := by
  intro i s t e hb hcol h
  obtain ⟨t', h', tr, rs, e', rfl, htr, hrs⟩ := exec_sameResult e i hb hcol t h
  refine ⟨_, h', htr, hrs, fun b hi => ?_, rfl⟩
  subst hi
  exact encodeDigit_results_eq h h' hrs

end Sys2Proof.Machine
end

section
/-! PROOFS. Faults and refusals: that a stop is precise and sticky (R28, R29, R161, R163, R165), the framing checks
(R162), and the operand checks as the domains of `Instr.wellFormed` (R62, R164). -/

namespace Sys2Proof.Machine

/-! ## A stop is precise and sticky -/

/-- R161, R163: an operation leaves a running engine, or one record under its own selector and nothing else. -/
theorem exec_next_running_or_record {i : Instr} {s t : State} (h : exec i s = .next t) :
    s.running ∧ (t.running ∨ (∃ k, t = { s with fault := some ⟨k, i.opsel⟩ }) ∨
      ∃ k, t = { s with refused := some ⟨k, i.opsel⟩ }) := by
  obtain ⟨hr, hp | ⟨k, rfl⟩⟩ := exec_next h
  · exact ⟨hr, .inl (performed_running hr hp)⟩
  · exact ⟨hr, .inr (takeStop_cases k i.opsel s)⟩

/-- R165 (1): every operation looks at FAULT and REFUSED first. -/
theorem exec_eq_unlessStopped (i : Instr) (s : State) : ∃ r, exec i s = unlessStopped s r := by
  cases i <;> exact ⟨_, rfl⟩

/-- Settles O4: of an operation's outcomes only the fault's record changes FAULT, and both an operation and a step look
at FAULT before all else. -/
theorem faultsArePreciseAndSticky : Obligations.FaultsArePreciseAndSticky := by
  refine ⟨fun i s t h hne => ?precise, fun i s r hf => ⟨?sticky, unlessStopped_fault hf _⟩⟩
  case precise =>
    obtain ⟨hr, ht | hfault | ⟨k, rfl⟩⟩ := exec_next_running_or_record h
    · exact absurd (ht.1.trans hr.1.symm) hne
    · exact hfault
    · exact absurd rfl hne
  case sticky =>
    obtain ⟨x, hx⟩ := exec_eq_unlessStopped i s
    exact hx.trans (unlessStopped_fault hf x)

/-- Settles O5: of an operation's outcomes only the refusal's record changes REFUSED, and both an operation and a step
look at REFUSED before all else but FAULT. -/
theorem refusalsArePreciseAndSticky : Obligations.RefusalsArePreciseAndSticky := by
  refine ⟨fun i s t h hne => ?precise, fun i s r hf hrf => ⟨?sticky, unlessStopped_refused hf hrf _⟩⟩
  case precise =>
    obtain ⟨hr, ht | ⟨k, rfl⟩ | hrefused⟩ := exec_next_running_or_record h
    · exact absurd (ht.2.trans hr.2.symm) hne
    · exact absurd rfl hne
    · exact hrefused
  case sticky =>
    obtain ⟨x, hx⟩ := exec_eq_unlessStopped i s
    exact hx.trans (unlessStopped_refused hf hrf x)

/-! ## The framing checks of the display writes and of the wire bytes -/

section
variable {s : State} (hr : s.ready)
include hr

theorem exec_setSegments_of_framed {segments : List Int} {length pos : Int}
    (hwf : (Instr.setSegments segments length pos).wellFormed = true) (hp : s.phase = .framed) :
    exec (.setSegments segments length pos) s = .next { s with fault := some ⟨.framingStart, 0x22⟩ } := by
  obtain ⟨hlen, hpos, hfits, hsegs⟩ := setSegments_checks hwf
  simp [exec, execSetSegments, perform_ready hr, hlen, hpos, hfits, hsegs, hp, takeStop, raiseFault]

theorem exec_showNumberDec_of_framed {num : Int} {lz : Bool} {length pos : Int}
    (hwf : (Instr.showNumberDec num lz length pos).wellFormed = true) (hp : s.phase = .framed) :
    exec (.showNumberDec num lz length pos) s = .next { s with fault := some ⟨.framingStart, 0x23⟩ } := by
  obtain ⟨hlen, hpos, hfits, hnum⟩ := showNumberDec_checks hwf
  simp [exec, execShowNumberDec, perform_ready hr, hlen, hpos, hfits, hnum, hp, takeStop, raiseFault]

theorem exec_clear_of_framed (hp : s.phase = .framed) :
    exec .clear s = .next { s with fault := some ⟨.framingStart, 0x24⟩ } := by
  simp [exec, execClear, perform_ready hr, hp, takeStop, raiseFault]

theorem transmit_of_idle (hp : s.phase = .idle) (b : Byte) :
    transmit b s = .next { s with fault := some ⟨.framingIdle, 0x04⟩ } := by
  simp [transmit, perform_ready hr, hp, takeStop, raiseFault]

end

/-- Settles O6: by the operation, each of which has its framing check after those of its operands. -/
theorem framingChecks : Obligations.FramingChecks := by
  intro i s hr hwf
  cases i with
  | start => exact exec_start_of_framed hr
  | setSegments segments length pos => exact exec_setSegments_of_framed hr hwf
  | showNumberDec num lz length pos => exact exec_showNumberDec_of_framed hr hwf
  | clear => exact exec_clear_of_framed hr
  | stop => exact exec_stop_of_idle hr
  | writeByte b => exact exec_writeByte_of_idle hr ((isByteValue_eq_isByte b).symm.trans hwf)
  | cmdData | cmdDispCtrl on level | cmdAddr pos | segData b => exact fun hp => transmit_of_idle hr hp _
  | construct clk dio | bitDelay | encodeDigit digit | setBrightness level on | setColon on => trivial

/-! ## The domains of `Instr.wellFormed` are what the operand checks admit -/

theorem placeOk_eq (length pos : Int) : Instr.placeOk length pos = (isPosition pos && fitsDisplay length pos) := by
  rw [Bool.eq_iff_iff]
  simp only [Instr.placeOk, isPosition, fitsDisplay, Bool.and_eq_true, decide_eq_true_eq]
  omega

theorem wellFormed_encodeDigit (digit : Int) : (Instr.encodeDigit digit).wellFormed = isDigit digit := by
  rw [Bool.eq_iff_iff]
  simp only [Instr.wellFormed, isDigit, Bool.and_eq_true, decide_eq_true_eq]
  omega

theorem wellFormed_setSegments (segments : List Int) (length pos : Int) :
    (Instr.setSegments segments length pos).wellFormed =
      (isSegmentsLength length && (isPosition pos && (fitsDisplay length pos && segmentsOk segments length))) := by
  simp only [Instr.wellFormed, placeOk_eq, isSegmentsLength, segmentsOk, Bool.decide_and, Bool.and_assoc,
    funext isByteValue_eq_isByte]

theorem wellFormed_showNumberDec (num : Int) (lz : Bool) (length pos : Int) :
    (Instr.showNumberDec num lz length pos).wellFormed =
      (isDecimalLength length && (isPosition pos && (fitsDisplay length pos && numFits num length))) := by
  simp only [Instr.wellFormed, placeOk_eq, isDecimalLength, numFits, Bool.decide_and, Bool.and_assoc]

/-! ## Courses that refuse exactly what is not admitted -/

/-- The course is a refusal if the operands are not admitted; if they are, it is a fault or leaves REFUSED clear. -/
inductive RefusesUnless : Bool → Course → Prop
  | refuse (k : RefusalKind) : RefusesUnless false (.error (.refuse k))
  | raise (k : FaultKind) : RefusesUnless true (.error (.raise k))
  | ok {t : State} (h : t.refused = none) : RefusesUnless true (.ok t)

theorem RefusesUnless.require_refuse {a : Bool} {c : Course} {b : Bool} {k : RefusalKind} (h : RefusesUnless a c) :
    RefusesUnless (b && a) (require b (.refuse k) c) := by
  cases b with
  | false => exact .refuse k
  | true => exact h

theorem RefusesUnless.require_raise {c : Course} {b : Bool} {k : FaultKind} (h : RefusesUnless true c) :
    RefusesUnless true (require b (.raise k) c) := by
  cases b with
  | false => exact .raise k
  | true => exact h

theorem RefusesUnless.perform {op : Opsel} {s : State} {a : Bool} {c : Course} (hr : s.ready) (h : RefusesUnless a c) :
    ∃ t, perform op s c = .next t ∧ (t.refused = none ↔ a = true) := by
  rw [perform_ready hr]
  cases h with
  | refuse k => exact ⟨_, rfl, by simp [takeStop]⟩
  | raise k => exact ⟨_, rfl, by simp [takeStop, hr.2.2]⟩
  | ok h => exact ⟨_, rfl, by simp [h]⟩

section
variable {s : State} (h : s.refused = none)
include h

/-- R134: the read of BRIGHT can raise a fault and refuses nothing. -/
theorem displayWrite_refusesUnless (segs : List Byte) (pos : Nat) : RefusesUnless true (displayWrite segs pos s) := by
  by_cases hb : s.bright = .noValue
  · rw [displayWrite_noValue hb]
    exact .raise _
  · obtain ⟨v, e, hv⟩ := exists_brightReadsAs hb
    rw [displayWrite_of_reads hv]
    exact .ok ((sendDisplay_untouched _ _ _ s e).refused.trans h)

theorem sendByteForHost_refusesUnless (b : Byte) : RefusesUnless true (.ok (sendByteForHost b s)) :=
  .ok ((sendByteForHost_untouched b s).refused.trans h)

end

/-- Settles O7: each operation's course refuses by its operand checks alone, and these together are the domain
`Instr.wellFormed`. Where an operand check is the last, the `&& true` is what the checks after it admit. -/
theorem operandsAreRefusedExactlyOutsideTheirDomain : Obligations.OperandsAreRefusedExactlyOutsideTheirDomain := by
  intro i s hr hi
  have hclear := hr.2.2
  cases i with
  | construct clk dio => exact absurd rfl (hi clk dio)
  | bitDelay | setColon on => exact RefusesUnless.perform hr <| .ok hclear
  | start => exact RefusesUnless.perform hr <| .require_raise <| .ok (by rw [startBody_eq, hclear])
  | stop => exact RefusesUnless.perform hr <| .require_raise <| .ok (by rw [stopBody_eq, hclear])
  | writeByte b =>
    rw [Instr.wellFormed, isByteValue_eq_isByte, ← Bool.and_true (isByte b)]
    exact RefusesUnless.perform hr <| .require_refuse <| .require_raise <| sendByteForHost_refusesUnless hclear _
  | encodeDigit digit =>
    rw [wellFormed_encodeDigit, ← Bool.and_true (isDigit digit)]
    exact RefusesUnless.perform hr <| .require_refuse <| .ok hclear
  | setBrightness level on =>
    rw [Instr.wellFormed, ← Bool.and_true (decide (0 ≤ level))]
    exact RefusesUnless.perform hr <| .require_refuse <| .ok hclear
  | setSegments segments length pos =>
    rw [wellFormed_setSegments, ← Bool.and_true (segmentsOk segments length)]
    exact RefusesUnless.perform hr <|
      .require_refuse <| .require_refuse <| .require_refuse <| .require_refuse <| .require_raise <|
      displayWrite_refusesUnless hclear _ _
  | showNumberDec num lz length pos =>
    rw [wellFormed_showNumberDec, ← Bool.and_true (numFits num length)]
    refine RefusesUnless.perform hr <|
      .require_refuse <| .require_refuse <| .require_refuse <| .require_refuse <| .require_raise ?_
    by_cases hcol : s.colon = .noValue
    · rw [readColon_noValue hcol]
      exact .raise _
    · obtain ⟨c, e, hc, -⟩ := exists_colonReadsAs hcol
      rw [readColon_of_reads hc]
      exact displayWrite_refusesUnless (s := { s with env := e }) hclear _ _
  | clear => exact RefusesUnless.perform hr <| .require_raise <| displayWrite_refusesUnless hclear _ _
  | cmdData | cmdDispCtrl on level | cmdAddr pos | segData b =>
    exact RefusesUnless.perform hr <| .require_raise <| sendByteForHost_refusesUnless hclear _

end Sys2Proof.Machine
end

section
/-! PROOFS. CONSTRUCT as the block's reset, and the one CONSTRUCT that every other operation needs (R166, R180,
R182). -/

namespace Sys2Proof.Machine

/-! ## The two refusals of CONSTRUCT, in their order -/

section
variable {s : State} (hr : s.running)
include hr

theorem exec_construct_of_made (hc : s.constructed = true) (clk dio : PinId) :
    exec (.construct clk dio) s = .next { s with refused := some ⟨.reconstruct, 0x00⟩ } := by
  simp [exec, execConstruct, unlessStopped_running hr, hc, takeStop, refuse]

theorem exec_construct_of_same_pin (hc : s.constructed = false) (pin : PinId) :
    exec (.construct pin pin) s = .next { s with refused := some ⟨.samePin, 0x00⟩ } := by
  simp [exec, execConstruct, unlessStopped_running hr, hc, takeStop, refuse]

end

/-- Settles O1: a made engine is refused before its pins are looked at; an unmade one with distinct pins passes
both checks, and the body of CONSTRUCT writes every register. -/
theorem constructIsTheReset : Obligations.ConstructIsTheReset := by
  intro s clk dio hr
  split
  next hc => exact exec_construct_of_made hr hc clk dio
  next hc =>
    have hunmade : s.constructed = false := Bool.eq_false_of_not_eq_true hc
    split
    next heq =>
      subst heq
      exact exec_construct_of_same_pin hr hunmade clk
    next hne =>
      rw [exec_construct_of_unmade hr hunmade hne, constructBody_eq]
      cases s.cfg.brightReset <;> cases s.cfg.colonReset <;> rfl

/-! ## Every other operation needs a made engine -/

/-- R165: every operation but CONSTRUCT makes its own checks as a course of `perform`, under its selector. -/
theorem exec_eq_perform {i : Instr} (hi : ∀ clk dio, i ≠ .construct clk dio) (s : State) :
    ∃ course, exec i s = perform i.opsel s course := by
  cases i with
  | construct clk dio => exact absurd rfl (hi clk dio)
  | _ => exact ⟨_, rfl⟩

/-- Settles O3: `perform` refuses an unmade engine before the operation's own course, whatever that is; CONSTRUCT's
first check refuses a made one. -/
theorem operationsNeedExactlyOneConstruct : Obligations.OperationsNeedExactlyOneConstruct := by
  refine fun i s hr => ⟨fun hi hc => ?_, fun clk dio hc => exec_construct_of_made hr hc clk dio⟩
  obtain ⟨course, hcourse⟩ := exec_eq_perform hi s
  exact hcourse.trans (perform_unconstructed hr hc course)

end Sys2Proof.Machine
end

section
/-! PROOFS. How many events, DELAYs and READs each operation emits (R96, R135, R190). -/

namespace Sys2Proof.Machine

/-! ## The counts of the rules' event sequences -/

/-- R190: the three counts of an event sequence, its events, its DELAYs and its READs. -/
def eventTally (events : List PinEvent) : Nat × Nat × Nat := (events.length, delayCount events, readCount events)

/-- The counts of consecutive sequences add up, each by itself. -/
@[simp] theorem eventTally_append (a b : List PinEvent) : eventTally (a ++ b) = eventTally a + eventTally b := by
  simp [eventTally, delayCount, readCount]

section
variable (c d : PinId)

@[simp] theorem eventTally_startEvents : eventTally (startEvents c d false) = (5, 2, 0) := rfl

@[simp] theorem eventTally_stopEvents (released : Bool) :
    eventTally (stopEvents c d released) = (if released then 8 else 7, 3, 0) := by
  cases released <;> rfl

@[simp] theorem eventTally_cellEvents (released x : Bool) :
    eventTally (cellEvents c d released x) = (if released then 6 else 5, 2, 0) := by
  cases released <;> cases x <;> rfl

@[simp] theorem eventTally_ackEvents (v : Level) : eventTally (ackEvents c d v) = (8, 3, 1) := rfl

/-- R96: a byte is eight cells and the acknowledgement; only the first cell can have the CFG_OUT of a released DIO. -/
@[simp] theorem eventTally_byteEvents (released : Bool) (b : Byte) (v : Level) :
    eventTally (byteEvents c d released b v) = (if released then 49 else 48, 19, 1) := by
  cases released <;> simp [byteEvents]

/-- Each byte after the first of a frame meets a released DIO. -/
theorem eventTally_bytesEvents_of_released (bytes : List (Byte × Level)) :
    eventTally (bytesEvents c d true bytes) = (49 * bytes.length, 19 * bytes.length, bytes.length) := by
  induction bytes with
  | nil => rfl
  | cons bv rest ih =>
    simp only [bytesEvents, eventTally_append, eventTally_byteEvents, ih, List.length_cons, Prod.mk_add_mk,
      Prod.mk.injEq, if_true]
    omega

/-- R96: a frame costs 12 events beside 49 a byte, for the CFG_OUT its first byte saves is the one its STOP needs. -/
theorem eventTally_frameEvents (bytes : List (Byte × Level)) :
    eventTally (frameEvents c d bytes) = (12 + 49 * bytes.length, 5 + 19 * bytes.length, bytes.length) := by
  cases bytes with
  | nil => rfl
  | cons bv rest =>
    simp only [frameEvents, bytesEvents, eventTally_append, eventTally_startEvents, eventTally_byteEvents,
      eventTally_bytesEvents_of_released, eventTally_stopEvents, List.isEmpty_cons, List.length_cons, Prod.mk_add_mk,
      Prod.mk.injEq, Bool.not_false, if_true, Bool.false_eq_true, if_false]
    omega

/-- Frames whose every byte meets a level. -/
theorem eventTally_framesEvents (frames : List (List Byte)) (levels : List Level)
    (h : frames.flatten.length ≤ levels.length) :
    eventTally (framesEvents c d frames levels) =
      (12 * frames.length + 49 * frames.flatten.length, 5 * frames.length + 19 * frames.flatten.length,
        frames.flatten.length) := by
  induction frames generalizing levels with
  | nil => rfl
  | cons frame rest ih =>
    rw [List.flatten_cons, List.length_append] at h
    have hzip : (frame.zip levels).length = frame.length := by rw [List.length_zip]; omega
    have hrest := ih (levels.drop frame.length) (by rw [List.length_drop]; omega)
    simp only [framesEvents, eventTally_append, eventTally_frameEvents, hzip, hrest, List.flatten_cons,
      List.length_append, List.length_cons, Prod.mk_add_mk, Prod.mk.injEq, and_true]
    omega

end

/-! ## What a performed operation emits -/

/-- R190: TRACE in `t` is that in `s` with as many events, DELAYs and READs appended as `counts` says. -/
def Emits (counts : Nat × Nat × Nat) (s t : State) : Prop :=
  ∃ new, t.trace = s.trace ++ new ∧ eventTally new = counts

/-- An operation that does not touch TRACE. -/
theorem Emits.none {s t : State} (h : t.trace = s.trace) : Emits (0, 0, 0) s t :=
  ⟨[], by rw [h, List.append_nil], rfl⟩

theorem sendByteForHost_emits (b : Byte) (s : State) :
    Emits (if s.released then 49 else 48, 19, 1) s (sendByteForHost b s) :=
  ⟨_, by rw [sendByteForHost_eq], eventTally_byteEvents _ _ _ _ _⟩

section
variable {s : State} (hc : s.constructed = true) (hl : LineInv s) (hp : s.phase = .idle)
include hc hl hp

/-- R187: between frames DIO is driven. -/
theorem LineInv.released_of_idle : s.released = false := by
  obtain ⟨hdir, -⟩ := hl.idle hc hp
  simp [State.released, hdir]

theorem startBody_emits : Emits (5, 2, 0) s (startBody s) := by
  refine ⟨_, by rw [startBody_eq], ?_⟩
  rw [hl.released_of_idle hc hp, eventTally_startEvents]

/-- R135: three frames, of one byte, of one more than the segments', and of one byte. -/
theorem sendDisplay_emits {segs : List Byte} {n : Nat} (hn : segs.length = n) (pos : Nat) (v : Byte) (e : Env) :
    Emits (183 + 49 * n, 72 + 19 * n, 3 + n) s (sendDisplay segs pos (controlByte v) { s with env := e }) := by
  have hbytes : (displayFrames pos segs v).flatten.length = 3 + n := by
    simp only [displayFrames, List.flatten_cons, List.flatten_nil, List.length_append, List.length_cons,
      List.length_nil, hn]
    omega
  refine ⟨_, by rw [sendDisplay_of_idle hc hl hp], ?_⟩
  rw [eventTally_framesEvents _ _ _ _ (by rw [hbytes, drawAcks_length, hn]), hbytes]
  simp only [displayFrames, List.length_cons, List.length_nil, Prod.mk.injEq, and_true]
  omega

end

/-- R190, R96, R135: the table of counts, for an operation whose checks have passed. -/
theorem performed_emits {i : Instr} {s t : State} (hl : LineInv s) (h : Performed i s t) :
    Emits (eventCounts s.released i) s t := by
  cases i with
  | construct clk dio =>
    obtain ⟨-, -, rfl⟩ := h
    exact ⟨_, by rw [constructBody_eq], rfl⟩
  | bitDelay =>
    obtain ⟨-, rfl⟩ := h
    exact ⟨_, by rw [delay_eq], rfl⟩
  | start =>
    obtain ⟨hc, hp, rfl⟩ := h
    exact startBody_emits hc hl hp
  | stop =>
    obtain ⟨-, -, rfl⟩ := h
    exact ⟨_, by rw [stopBody_eq], eventTally_stopEvents _ _ _⟩
  | setColon on =>
    obtain ⟨-, rfl⟩ := h
    exact .none rfl
  | encodeDigit digit | setBrightness level on =>
    obtain ⟨-, -, rfl⟩ := h
    exact .none rfl
  | writeByte b | cmdData | cmdDispCtrl on level | cmdAddr pos | segData b =>
    obtain ⟨-, -, b, rfl⟩ := performed_of_sendsByte rfl h
    exact sendByteForHost_emits b s
  | setSegments segments length pos =>
    obtain ⟨hc, -, -, -, hsegs, hp, v, e, -, rfl⟩ := h
    exact sendDisplay_emits hc hl hp (length_segmentBytes hsegs) _ v e
  | showNumberDec num lz length pos =>
    obtain ⟨hc, -, -, -, -, hp, c, -, v, e, -, -, rfl⟩ := h
    exact sendDisplay_emits hc hl hp (by rw [length_applyColon, length_decSegments]) _ v e
  | clear =>
    obtain ⟨hc, hp, v, e, -, rfl⟩ := h
    exact sendDisplay_emits hc hl hp (n := 4) rfl _ v e

/-- A stop leaves no running engine. -/
theorem takeStop_not_running (k : Stop) (op : Opsel) (s : State) : ¬ (takeStop k op s).running := by
  rcases takeStop_cases k op s with ⟨f, ht⟩ | ⟨r, ht⟩ <;> simp [ht]

/-- Settles O19: an operation that leaves the engine running was performed, and so emitted its counts; the minimum
duration is its DELAYs by definition. -/
theorem operationsEmitTheirCounts : Obligations.OperationsEmitTheirCounts := by
  intro i s t hl h ht
  obtain ⟨-, hp | ⟨k, rfl⟩⟩ := exec_next h
  · obtain ⟨new, htrace, hcounts⟩ := performed_emits hl hp
    rw [← hcounts]
    exact ⟨new, htrace, rfl, rfl, rfl, rfl⟩
  · exact absurd ht (takeStop_not_running k i.opsel s)

end Sys2Proof.Machine
end
